-- ==== Sys2Proof/Word.lean ====
section
/-! DEFINITION. The word types of PWMCALC: the 64-bit command and response word (30_encoding.md R65, R70) and the
widths of its operand fields and registers. -/

namespace Sys2Proof

/-- A command word or a response word, 64 bits (R65, R70). -/
abbrev Word := BitVec 64

/-- A 32-bit operand: a frequency in hertz or a period in microseconds (R68). -/
abbrev Word32 := BitVec 32

/-- A 16-bit register or operand field: top, compare value, pulse counter, `hi`, `lo`, `val`. -/
abbrev Half := BitVec 16

/-- One byte: `op`, `aux`, `err`, a duty cycle of TRAIN or PWM, a byte of a narrower bus. -/
abbrev Byte := BitVec 8

/-- A prescaler selector, 3 bits (10_state.md R23, R31). -/
abbrev Sel := BitVec 3

end Sys2Proof
end

