-- ==== Sys2Proof/Syntax.lean ====
section
/-! DEFINITION. The operations of PWMCALC as syntax: one constructor for each row of spec/opcode_table.json, with
the operands 30_encoding.md R68 assembles from the command word. A field whose codes include reserved values is kept
as its bits: R74 makes a reserved value legal as an encoding and lets the operation refuse it. -/

namespace Sys2Proof

/-- An output-compare channel, and the pin that is identified with it (10_state.md R22). -/
inductive Ch where
  | A
  | B
  deriving DecidableEq, Repr

/-- The other channel. -/
def Ch.other : Ch → Ch
  | .A => .B
  | .B => .A

/-- The fourteen operations of 30_encoding.md R72. -/
inductive Instr where
  /-- CLKDIV `period_us` (40_calc.md R86). -/
  | clkdiv (periodUs : Word32)
  /-- SOLVE `mode, f` (40_calc.md R89). -/
  | solve (mode : BitVec 2) (f : Word32)
  /-- ENCODE `top, duty` (40_calc.md R97). -/
  | encode (top duty : Half)
  /-- DECODE `top, compare` (40_calc.md R100). -/
  | decode (top compare : Half)
  /-- CONFIG `ch, mode, pol, psel, top, run` (41_waveform.md R111). -/
  | config (ch : Ch) (mode : BitVec 2) (pol : BitVec 3) (psel : Sel) (top : Half) (run : Bool)
  /-- DISCONNECT `ch` (41_waveform.md R116). -/
  | disconnect (ch : Ch)
  /-- PWM `ch, mode, f, duty` (41_waveform.md R118). -/
  | pwm (ch : Ch) (mode : BitVec 2) (f : Word32) (duty : Byte)
  /-- RDDUTY `ch` (41_waveform.md R124). -/
  | rdduty (ch : Ch)
  /-- PINSTAT `ch` (41_waveform.md R127). -/
  | pinstat (ch : Ch)
  /-- TRAIN `ch, N, d1, d2` (42_sequencer.md R136). -/
  | train (ch : Ch) (n : Half) (d1 d2 : Byte)
  /-- STOP (42_sequencer.md R144). -/
  | stop
  /-- POLL (42_sequencer.md R148). -/
  | poll
  /-- GIEON (42_sequencer.md R150). -/
  | gieon
  /-- GIEOFF (42_sequencer.md R151). -/
  | gieoff
  deriving DecidableEq, Repr

end Sys2Proof
end

