-- ==== Sys2Proof/Decode.lean ====
section
/-! DEFINITION. The command word: its layout (30_encoding.md R66), the opcode map (R72), the decoder, the encoder,
and the byte order of a narrower bus (20_memory.md R54). -/

namespace Sys2Proof

/-! ## Fields (R66) -/

/-- `cmd.op`, bits 63:56. -/
def fieldOp (w : Word) : Byte := w.extractLsb' 56 8
/-- `cmd.ch`, bit 55. -/
def fieldCh (w : Word) : BitVec 1 := w.extractLsb' 55 1
/-- `cmd.mode`, bits 54:53. -/
def fieldMode (w : Word) : BitVec 2 := w.extractLsb' 53 2
/-- `cmd.pol`, bits 52:50. -/
def fieldPol (w : Word) : BitVec 3 := w.extractLsb' 50 3
/-- `cmd.psel`, bits 49:47. -/
def fieldPsel (w : Word) : Sel := w.extractLsb' 47 3
/-- `cmd.run`, bit 46. -/
def fieldRun (w : Word) : BitVec 1 := w.extractLsb' 46 1
/-- `cmd.rsv`, bits 45:40. -/
def fieldRsv (w : Word) : BitVec 6 := w.extractLsb' 40 6
/-- `cmd.aux`, bits 39:32. -/
def fieldAux (w : Word) : Byte := w.extractLsb' 32 8
/-- `cmd.hi`, bits 31:16. -/
def fieldHi (w : Word) : Half := w.extractLsb' 16 16
/-- `cmd.lo`, bits 15:0. -/
def fieldLo (w : Word) : Half := w.extractLsb' 0 16
/-- `{hi, lo}`: two halves as one 32-bit operand, `hi` the more significant (R68). -/
def joinHalves (hi lo : Half) : Word32 := hi.setWidth 32 <<< 16 ||| lo.setWidth 32

/-- `{hi, lo}`: two bytes as one half, `hi` the more significant. -/
def joinBytes (hi lo : Byte) : Half := hi.setWidth 16 <<< 8 ||| lo.setWidth 16

/-- `w32 = {cmd.hi, cmd.lo}` (R68). -/
def fieldW32 (w : Word) : Word32 := joinHalves (fieldHi w) (fieldLo w)

/-- The channel a `ch` bit names: 0 = A, 1 = B (R66). -/
def chOfBit (b : BitVec 1) : Ch := if b = 1#1 then .B else .A

/-- The `ch` bit of a channel. -/
def bitOfCh : Ch → BitVec 1
  | .A => 0#1
  | .B => 1#1

/-- Upper half of a 32-bit operand, the `hi` field. -/
def upperHalf (v : Word32) : Half := v.extractLsb' 16 16

/-- Lower half of a 32-bit operand, the `lo` field. -/
def lowerHalf (v : Word32) : Half := v.extractLsb' 0 16

/-- `v[15:8]` (R68: `d2 = cmd.hi[15:8]`). -/
def upperByte (v : Half) : Byte := v.extractLsb' 8 8

/-- `v[7:0]` (R68: `d1 = cmd.hi[7:0]`). -/
def lowerByte (v : Half) : Byte := v.extractLsb' 0 8

/-- The ten fields of a command word as data, in the order of R66. -/
structure Fields where
  op : Byte := 0
  ch : BitVec 1 := 0
  mode : BitVec 2 := 0
  pol : BitVec 3 := 0
  psel : Sel := 0
  run : BitVec 1 := 0
  rsv : BitVec 6 := 0
  aux : Byte := 0
  hi : Half := 0
  lo : Half := 0
  deriving DecidableEq, Repr

/-- The command word of ten fields: each at its place of R66. -/
def packFields (f : Fields) : Word :=
  f.op.setWidth 64 <<< 56 ||| f.ch.setWidth 64 <<< 55 ||| f.mode.setWidth 64 <<< 53 |||
    f.pol.setWidth 64 <<< 50 ||| f.psel.setWidth 64 <<< 47 ||| f.run.setWidth 64 <<< 46 |||
    f.rsv.setWidth 64 <<< 40 ||| f.aux.setWidth 64 <<< 32 ||| f.hi.setWidth 64 <<< 16 ||| f.lo.setWidth 64

/-! ## The opcode map (R72) -/

/-- The operation codes. -/
inductive Opcode where
  | clkdiv | solve | encode | decode
  | config | disconnect | pwm | rdduty | pinstat
  | train | stop | poll | gieon | gieoff
  deriving DecidableEq, Repr

/-- The fourteen rows of R72, in its order. -/
def allOpcodes : List Opcode :=
  [.clkdiv, .solve, .encode, .decode, .config, .disconnect, .pwm, .rdduty, .pinstat,
   .train, .stop, .poll, .gieon, .gieoff]

/-- Column `op` of R72. -/
def opcodeCode : Opcode → Byte
  | .clkdiv => 0x01
  | .solve => 0x02
  | .encode => 0x03
  | .decode => 0x04
  | .config => 0x10
  | .disconnect => 0x11
  | .pwm => 0x12
  | .rdduty => 0x13
  | .pinstat => 0x14
  | .train => 0x20
  | .stop => 0x21
  | .poll => 0x22
  | .gieon => 0x30
  | .gieoff => 0x31

/-- Column `match` of R72. -/
def opcodeMatch : Opcode → Word
  | .clkdiv => 0x0100000000000000
  | .solve => 0x0200000000000000
  | .encode => 0x0300000000000000
  | .decode => 0x0400000000000000
  | .config => 0x1000000000000000
  | .disconnect => 0x1100000000000000
  | .pwm => 0x1200000000000000
  | .rdduty => 0x1300000000000000
  | .pinstat => 0x1400000000000000
  | .train => 0x2000000000000000
  | .stop => 0x2100000000000000
  | .poll => 0x2200000000000000
  | .gieon => 0x3000000000000000
  | .gieoff => 0x3100000000000000

/-- Column `mask` of R72: a 1 in every bit of `op`, of `rsv` and of every field the format does not use. -/
def opcodeMask : Opcode → Word
  | .clkdiv => 0xFFFFFFFF00000000
  | .solve => 0xFF9FFFFF00000000
  | .encode => 0xFFFFFFFF00000000
  | .decode => 0xFFFFFFFF00000000
  | .config => 0xFF003FFFFFFF0000
  | .disconnect => 0xFF7FFFFFFFFFFFFF
  | .pwm => 0xFF1FFF0000000000
  | .rdduty => 0xFF7FFFFFFFFFFFFF
  | .pinstat => 0xFF7FFFFFFFFFFFFF
  | .train => 0xFF7FFFFF00000000
  | .stop => 0xFFFFFFFFFFFFFFFF
  | .poll => 0xFFFFFFFFFFFFFFFF
  | .gieon => 0xFFFFFFFFFFFFFFFF
  | .gieoff => 0xFFFFFFFFFFFFFFFF

/-- A format of R69: which fields beside `op` an operation uses. -/
structure Format where
  ch : Bool := false
  mode : Bool := false
  pol : Bool := false
  psel : Bool := false
  run : Bool := false
  aux : Bool := false
  hi : Bool := false
  lo : Bool := false
  deriving DecidableEq, Repr

/-- The format of each operation (R69). -/
def opcodeFormat : Opcode → Format
  | .clkdiv => { hi := true, lo := true }
  | .solve => { mode := true, hi := true, lo := true }
  | .encode => { hi := true, lo := true }
  | .decode => { hi := true, lo := true }
  | .config => { ch := true, mode := true, pol := true, psel := true, run := true, lo := true }
  | .disconnect => { ch := true }
  | .pwm => { ch := true, mode := true, aux := true, hi := true, lo := true }
  | .rdduty => { ch := true }
  | .pinstat => { ch := true }
  | .train => { ch := true, hi := true, lo := true }
  | .stop => {}
  | .poll => {}
  | .gieon => {}
  | .gieoff => {}

/-- `rsv` and every field the format does not use are zero (R69, R73). -/
def unusedZero (fm : Format) (w : Word) : Prop :=
  fieldRsv w = 0 ∧ (fm.ch = false → fieldCh w = 0) ∧ (fm.mode = false → fieldMode w = 0) ∧
    (fm.pol = false → fieldPol w = 0) ∧ (fm.psel = false → fieldPsel w = 0) ∧
    (fm.run = false → fieldRun w = 0) ∧ (fm.aux = false → fieldAux w = 0) ∧
    (fm.hi = false → fieldHi w = 0) ∧ (fm.lo = false → fieldLo w = 0)

/-- The row whose `op` equals the given code, if there is one. -/
def opcodeOf (code : Byte) : Option Opcode := allOpcodes.find? fun o => opcodeCode o == code

/-! ## Decoding (R72, R73) -/

/-- Why a command word decodes to `Illegal` (R73). The three causes are R73's own; the host is answered
`ERR_ILLEGAL_COMMAND` for each. `incomplete` is no word: fewer or more than eight bytes of a narrower bus (R54).
Naming the cause is a DESIGN CHOICE, notes/assumptions/13.md. -/
inductive Illegal where
  | unassignedOp (op : Byte)
  | reservedNotZero
  | unusedFieldNotZero
  | incomplete
  deriving DecidableEq, Repr

/-- The operands of R68, read from the fields of a word, for the row it belongs to. -/
def buildInstr (o : Opcode) (w : Word) : Instr :=
  match o with
  | .clkdiv => .clkdiv (fieldW32 w)
  | .solve => .solve (fieldMode w) (fieldW32 w)
  | .encode => .encode (fieldHi w) (fieldLo w)
  | .decode => .decode (fieldHi w) (fieldLo w)
  | .config => .config (chOfBit (fieldCh w)) (fieldMode w) (fieldPol w) (fieldPsel w) (fieldLo w) (fieldRun w == 1#1)
  | .disconnect => .disconnect (chOfBit (fieldCh w))
  | .pwm => .pwm (chOfBit (fieldCh w)) (fieldMode w) (fieldW32 w) (fieldAux w)
  | .rdduty => .rdduty (chOfBit (fieldCh w))
  | .pinstat => .pinstat (chOfBit (fieldCh w))
  | .train => .train (chOfBit (fieldCh w)) (fieldLo w) (lowerByte (fieldHi w)) (upperByte (fieldHi w))
  | .stop => .stop
  | .poll => .poll
  | .gieon => .gieon
  | .gieoff => .gieoff

/-- `decode(cmd)` of R72: the operation of the row whose `op` equals `cmd.op`, provided `cmd AND mask = match`;
otherwise `Illegal`, by name. -/
def decode (w : Word) : Except Illegal Instr :=
  match opcodeOf (fieldOp w) with
  | none => .error (.unassignedOp (fieldOp w))
  | some o =>
    if w &&& opcodeMask o = opcodeMatch o then .ok (buildInstr o w)
    else if fieldRsv w = 0 then .error .unusedFieldNotZero
    else .error .reservedNotZero

/-! ## Encoding -/

/-- The row an operation belongs to. -/
def opcodeOfInstr : Instr → Opcode
  | .clkdiv _ => .clkdiv
  | .solve _ _ => .solve
  | .encode _ _ => .encode
  | .decode _ _ => .decode
  | .config _ _ _ _ _ _ => .config
  | .disconnect _ => .disconnect
  | .pwm _ _ _ _ => .pwm
  | .rdduty _ => .rdduty
  | .pinstat _ => .pinstat
  | .train _ _ _ _ => .train
  | .stop => .stop
  | .poll => .poll
  | .gieon => .gieon
  | .gieoff => .gieoff

/-- The fields of an operation's command word: its operands at their places of R68, its format's unused fields and
`rsv` zero (R69). -/
def fieldsOfInstr (i : Instr) : Fields :=
  match i with
  | .clkdiv p => { op := opcodeCode .clkdiv, hi := upperHalf p, lo := lowerHalf p }
  | .solve mode f => { op := opcodeCode .solve, mode := mode, hi := upperHalf f, lo := lowerHalf f }
  | .encode top duty => { op := opcodeCode .encode, hi := top, lo := duty }
  | .decode top compare => { op := opcodeCode .decode, hi := top, lo := compare }
  | .config ch mode pol psel top run =>
    { op := opcodeCode .config, ch := bitOfCh ch, mode := mode, pol := pol, psel := psel,
      run := BitVec.ofBool run, lo := top }
  | .disconnect ch => { op := opcodeCode .disconnect, ch := bitOfCh ch }
  | .pwm ch mode f duty =>
    { op := opcodeCode .pwm, ch := bitOfCh ch, mode := mode, aux := duty, hi := upperHalf f, lo := lowerHalf f }
  | .rdduty ch => { op := opcodeCode .rdduty, ch := bitOfCh ch }
  | .pinstat ch => { op := opcodeCode .pinstat, ch := bitOfCh ch }
  | .train ch n d1 d2 => { op := opcodeCode .train, ch := bitOfCh ch, hi := joinBytes d2 d1, lo := n }
  | .stop => { op := opcodeCode .stop }
  | .poll => { op := opcodeCode .poll }
  | .gieon => { op := opcodeCode .gieon }
  | .gieoff => { op := opcodeCode .gieoff }

/-- The command word of an operation. -/
def encode (i : Instr) : Word := packFields (fieldsOfInstr i)

/-! ## A narrower bus (R54) -/

/-- The word whose bytes are given, least significant byte first (R54). -/
def wordOfBytes : List Byte → Word
  | [] => 0
  | b :: rest => wordOfBytes rest <<< 8 ||| b.setWidth 64

/-- The eight bytes of a word, least significant byte first (R54). -/
def bytesOfWord (w : Word) : List Byte :=
  [w.extractLsb' 0 8, w.extractLsb' 8 8, w.extractLsb' 16 8, w.extractLsb' 24 8,
   w.extractLsb' 32 8, w.extractLsb' 40 8, w.extractLsb' 48 8, w.extractLsb' 56 8]

/-- A command from the bytes of a narrower bus: it takes effect with its last byte, so any number of bytes but
eight is no command. -/
def decodeBytes (bytes : List Byte) : Except Illegal Instr :=
  if bytes.length = 8 then decode (wordOfBytes bytes) else .error .incomplete

/-- The instruction the decoder reads from the low `nbits` bits of `w`, its bits above `nbits` zero: the word is laid
out as R54 stores it, its least significant byte first, and given to `decodeBytes`. -/
def decodeTableWord (nbits w : Nat) : Option Instr :=
  match decodeBytes (bytesOfWord (BitVec.ofNat 64 (w % 2 ^ nbits))) with
  | .ok i => some i
  | .error _ => none

end Sys2Proof
end

