-- ==== Sys2Proof/Config.lean ====
section
/-! DEFINITION. The implementation parameters of 00_scope.md R6, the check that admits them, and the free value of
a pin read. -/

namespace Sys2Proof

/-- `COUNTER_MAX`, the largest counter value of the 16-bit timer (R6). -/
def counterMax : Nat := 65535

/-- The open parameters of R6 as bare data, before the check. -/
structure RawCfg where
  /-- `CLK_HZ`, the CPU clock in hertz. -/
  clkHz : Nat
  /-- `PRESCALERS`, the prescaler divisors, ascending. -/
  prescalers : List Nat
  /-- `DIVISORS`, the divisor set of the Clock Divider Table, listed strictly ascending. -/
  divisors : List Nat
  /-- `REM_BITS`, the width of the pulse counter. -/
  remBits : Nat
  /-- `IDLE_LEVEL`, the level a pin is forced to when a train ends or is stopped. -/
  idleLevel : Bool
  deriving DecidableEq, Repr

/-- Every element is above its predecessor, at most 32768 times it, and at most 65535 (R6, PRESCALERS). -/
def prescalersFrom : Nat → List Nat → Bool
  | _, [] => true
  | p, q :: rest => decide (p < q) && decide (q ≤ 32768 * p) && decide (q ≤ 65535) && prescalersFrom q rest

/-- R6, PRESCALERS: non-empty, at most 7 elements, the first is 1, strictly ascending with bounded ratio. -/
def prescalersOk : List Nat → Bool
  | [] => false
  | p :: rest => decide (p = 1) && decide (rest.length ≤ 6) && prescalersFrom p rest

/-- R6, DIVISORS: positive integers up to 65535; the set is written as its strictly ascending list. -/
def divisorsFrom : Nat → List Nat → Bool
  | _, [] => true
  | p, d :: rest => decide (p < d) && decide (d ≤ 65535) && divisorsFrom d rest

/-- R6, CLK_HZ: exactly the two reference frequencies. -/
def clockOk (clkHz : Nat) : Bool := decide (clkHz = 1000000) || decide (clkHz = 8000000)

/-- The parameters R6 admits. A configuration that fails is not an instance of PWMCALC (60_exceptions.md R168). -/
def RawCfg.ok (r : RawCfg) : Bool :=
  clockOk r.clkHz && prescalersOk r.prescalers && divisorsFrom 0 r.divisors &&
    decide (2 ≤ r.remBits) && decide (r.remBits ≤ 16)

/-- `Cfg` of R6: parameters together with the fact that R6 admits them, so that no other machine can be written
down (R168: "a model is not instantiated for any other value"). -/
structure Cfg extends RawCfg where
  /-- The parameters are admitted by R6. -/
  admitted : toRawCfg.ok = true
  deriving DecidableEq, Repr

/-- Why parameters are turned away before any machine exists (R168: "fail fast"). -/
inductive CfgError where
  /-- `UnsupportedClockFrequency`: the CPU clock is neither 1 MHz nor 8 MHz (R168). -/
  | unsupportedClockFrequency
  /-- Another condition of R6 fails. -/
  | badParameter
  deriving DecidableEq, Repr

/-- The build-time check of R168: parameters become a configuration, or the error that names why not. -/
def Cfg.make (r : RawCfg) : Except CfgError Cfg :=
  if h : r.ok = true then .ok ⟨r, h⟩
  else if clockOk r.clkHz then .error .badParameter else .error .unsupportedClockFrequency

/-- An admitted list of prescalers names at least one (R6). -/
theorem Cfg.prescalers_length_pos (c : Cfg) : 1 ≤ c.prescalers.length := by
  have h := c.admitted
  cases hp : c.prescalers with
  | nil => simp [RawCfg.ok, hp, prescalersOk] at h
  | cons p rest => simp

/-- `REM_MAX = 2^REM_BITS - 1` (R6). -/
def Cfg.remMax (c : Cfg) : Nat := 2 ^ c.remBits - 1

/-- The parameters R6 gives as defaults, for one of the two clocks; the defaults of `PRESCALERS` and `DIVISORS` are
PRESUMED by the spec (93_implementation_defined.md K1, K2, K7). notes/assumptions/4.md. -/
def RawCfg.defaultAt (clkHz : Nat) : RawCfg :=
  { clkHz := clkHz
    prescalers := [1, 8, 64, 256, 1024]
    divisors := [2, 4, 8, 16, 32, 64, 128]
    remBits := 16
    idleLevel := false }

/-- The default parameters at 1 MHz. -/
def Cfg.default1MHz : Cfg := ⟨RawCfg.defaultAt 1000000, by decide⟩

/-- The default parameters at 8 MHz. -/
def Cfg.default8MHz : Cfg := ⟨RawCfg.defaultAt 8000000, by decide⟩

/-- The `n`-th `ANY` bit (00_scope.md R9, 10_state.md R39): what the `n`-th read of a pin whose level is `X`
returns. It has no body, so no proof can know it; every read uses a fresh `n`. Free value, notes/assumptions/6.md. -/
opaque Config.anyBit : Nat → Bool

end Sys2Proof
end

