-- ==== Sys2Proof/Machine/State.lean ====
section
/-! DEFINITION. The state of PWMCALC (10_state.md), what moves it (20_memory.md R51), and its state after reset (R45).
Fields of the spec's record `S` carry the spec's names in lower case; the model's own fields stand after them. -/

namespace Sys2Proof.Machine

/-- The timer's counting mode (10_state.md R23, R32): codes 0, 1, 2; code 3 is never written, so it has no value here
(notes/assumptions/9.md). -/
inductive Mode where
  | fast
  | phaseCorrect
  | ctc
  deriving DecidableEq, Repr

/-- The pin policy of a channel (R38): codes 0 to 5; codes 6 and 7 are never written (notes/assumptions/9.md). -/
inductive Policy where
  | disconnected
  | toggle
  | clear
  | set
  | nonInverting
  | inverting
  deriving DecidableEq, Repr

/-- The level of a pin (R39): `0`, `1`, or `X`, the level the document leaves undefined. -/
inductive Level where
  | low
  | high
  | X
  deriving DecidableEq, Repr

/-- A per-channel field `S.arr[ch]` (00_scope.md R9). -/
structure PerCh (α : Type) where
  a : α
  b : α
  deriving DecidableEq, Repr

/-- Read of `S.arr[ch]`. -/
def PerCh.get {α : Type} (p : PerCh α) : Ch → α
  | .A => p.a
  | .B => p.b

/-- The field with `S.arr[ch]` replaced. -/
def PerCh.put {α : Type} (p : PerCh α) (ch : Ch) (v : α) : PerCh α :=
  match ch with
  | .A => { p with a := v }
  | .B => { p with b := v }

/-- `S.CFG`, the active TimerConfig (R23). -/
structure TimerConfig where
  valid : Bool
  psel : Sel
  top : Half
  mode : Mode
  deriving DecidableEq, Repr

/-- `S.SEQ`, the PulseTrainState (R26). `remaining` is held in 16 bits for every admitted `REM_BITS`
(notes/assumptions/8.md). -/
structure PulseTrain where
  value0 : Half
  value1 : Half
  remaining : Half
  active : Ch
  deriving DecidableEq, Repr

/-- One move of one agent (20_memory.md R51), or one byte of a command or response word carried over a narrower bus
(R54). -/
inductive Event where
  /-- `Host(cmd)`: the host issues a command word. -/
  | host (cmd : Word)
  /-- The host delivers one more byte of a command word, least significant byte first. -/
  | busByte (b : Byte)
  /-- The host takes one more byte of the response word, least significant byte first. -/
  | busRead
  /-- `MATCH(ch)`: the timer reports a compare match. -/
  | compareMatch (ch : Ch)
  /-- `Service(ch)`: the compare-match interrupt of the channel is taken. -/
  | service (ch : Ch)
  deriving DecidableEq, Repr

/-- The whole state. -/
@[ext]
structure State where
  /-- `S.CFG` (R23). -/
  cfg : TimerConfig
  /-- `S.SEQ` (R26). -/
  seq : PulseTrain
  /-- `S.TCLK`, the clock selection: 0 stopped, `k` the divisor `PRESCALERS[k-1]` (R31). -/
  tclk : Sel
  /-- `S.TMODE`, the counting mode (R32). -/
  tmode : Mode
  /-- `S.ICR`, the timer's top (R33). -/
  icr : Half
  /-- `S.OCR[ch]`, the compare registers (R34). -/
  ocr : PerCh Half
  /-- `S.OCIE[ch]`, the compare-match interrupt enables (R35). -/
  ocie : PerCh Bool
  /-- `S.OCF[ch]`, the compare-match pending flags (R36). -/
  ocf : PerCh Bool
  /-- `S.GIE`, the global interrupt enable (R37). -/
  gie : Bool
  /-- `S.POL[ch]`, the pin policies (R38). -/
  pol : PerCh Policy
  /-- `S.PINLVL[ch]`, the pin levels (R39). -/
  pinlvl : PerCh Level
  /-- `S.PINDIR[ch]`: the pin's direction is output (R40). -/
  pindir : PerCh Bool
  /-- The model's: `Cfg` of 00_scope.md R6, an argument of the machine that no step writes
  (notes/assumptions/3.md). -/
  params : Cfg
  /-- The model's: the response port (R47), the last response word returned; `none` before the first command
  (notes/assumptions/7.md). -/
  rsp : Option Word
  /-- The model's: how many `ANY` bits have been drawn (notes/assumptions/6.md). -/
  draws : Nat
  /-- The model's: the bytes of a command word that have arrived over a narrower bus and are not yet a whole word,
  the first one first (R54, notes/assumptions/10.md). -/
  rx : List Byte
  /-- The model's: the bytes of the response word being carried to the host over a narrower bus that are still to
  come, the next one first (R54, notes/assumptions/10.md). -/
  tx : List Byte
  /-- The model's: the bytes of that word the host has, not yet a whole word, the first one first (R54,
  notes/assumptions/10.md). -/
  hostRx : List Byte
  /-- The model's: the last response word that has reached the host whole over a narrower bus; `none` before the first
  (R54, notes/assumptions/10.md). -/
  hostRsp : Option Word
  /-- The model's: the moves still to come, the next one first (R51, notes/assumptions/1.md). -/
  schedule : List Event
  deriving DecidableEq, Repr

/-- Why the machine stops with a fault: it never does. PWMCALC has no trap, no access fault and no stuck state
(60_exceptions.md R170, 93_implementation_defined.md section 1), so there is no constructor. -/
inductive Fault where
  deriving DecidableEq, Repr

/-- Why a step has no meaning. -/
inductive Refusal where
  /-- Raised by an arm of `exec` for an instruction that has no meaning yet; safe, since nothing is claimed of it. -/
  | notModelled (mnemonic : String)
  /-- Raised by `step` when the schedule names a move that R51 does not enable in this state: `MATCH` on a stopped
  timer, or a `Service` that is masked, not enabled, not pending or not first; or a byte of a response before there is
  one. Such a move is no step of the hardware; safe, since the model only stops where the hardware has nothing to do
  (notes/assumptions/1.md, notes/assumptions/10.md). -/
  | notEnabled (move : Event)
  deriving DecidableEq, Repr

/-- What a step answers. -/
abbrev Result := Host.Outcome State Fault Refusal

/-- The register contents R45 leaves unspecified after reset, as data: "a free argument of the reset state, within the
field's legal values". The legal values are R23's: a selector of the list and a top of `1 .. COUNTER_MAX`; the modes are
legal by their type, and the compare registers, `S.ICR` and `S.SEQ.values` may hold any 16 bits (R26, R33, R34). -/
structure ResetContents (c : Cfg) where
  value0 : Half
  value1 : Half
  active : Ch
  psel : Sel
  top : Half
  mode : Mode
  tmode : Mode
  icr : Half
  ocr : PerCh Half
  pselLegal : 1 ≤ psel.toNat ∧ psel.toNat ≤ c.prescalers.length
  topLegal : 1 ≤ top.toNat ∧ top.toNat ≤ counterMax
  deriving DecidableEq, Repr

/-- The reset state of R45 for any admitted parameters and any legal unspecified contents. -/
def State.resetOf (c : Cfg) (u : ResetContents c) : State :=
  { cfg := { valid := false, psel := u.psel, top := u.top, mode := u.mode }
    seq := { value0 := u.value0, value1 := u.value1, remaining := 0, active := u.active }
    tclk := 0
    tmode := u.tmode
    icr := u.icr
    ocr := u.ocr
    ocie := { a := false, b := false }
    ocf := { a := false, b := false }
    gie := false
    pol := { a := .disconnected, b := .disconnected }
    pinlvl := { a := .X, b := .X }
    pindir := { a := false, b := false }
    params := c
    rsp := none
    draws := 0
    rx := []
    tx := []
    hostRx := []
    hostRsp := none
    schedule := [] }

/-- DESIGN CHOICE: the contents `State.reset` holds where R45 says "unspecified": the least legal value of each field,
which is 1 for the selector and the top, else zero, and the first of each enumeration (notes/assumptions/5.md). No
statement may rest on them; statements about reset are made of `State.resetOf` for all contents. -/
def ResetContents.least (c : Cfg) : ResetContents c :=
  { value0 := 0, value1 := 0, active := .A, psel := 1, top := 1, mode := .fast, tmode := .fast, icr := 0,
    ocr := { a := 0, b := 0 }, pselLegal := ⟨by decide, c.prescalers_length_pos⟩, topLegal := by decide }

/-- The machine right after reset, with the default parameters at 1 MHz (notes/assumptions/4.md). -/
def State.reset : State := State.resetOf Cfg.default1MHz (ResetContents.least Cfg.default1MHz)

end Sys2Proof.Machine
end

