-- ==== Sys2Proof/Machine/Flags.lean ====
section
/-! DEFINITION. The status flags `S.GIE`, `S.OCIE[ch]`, `S.OCF[ch]` (10_state.md R43): what sets, clears and reads
them, and the conditions they put on the moves of the timer and of the interrupt (20_memory.md R51). -/

namespace Sys2Proof.Machine

/-- `S.GIE <- v` (R37). -/
def setGie (v : Bool) (s : State) : State := { s with gie := v }

/-- Enable or disable the compare-match interrupt of a channel: `S.OCIE[ch] <- v` (R35, R41). -/
def setIrqEnable (ch : Ch) (v : Bool) (s : State) : State := { s with ocie := s.ocie.put ch v }

/-- The timer or an acknowledgement writes the pending flag: `S.OCF[ch] <- v` (R36, R41). -/
def setMatchFlag (ch : Ch) (v : Bool) (s : State) : State := { s with ocf := s.ocf.put ch v }

/-- The compare-match interrupt of the channel is unmasked, enabled and pending (60_exceptions.md R175). -/
def irqRequested (ch : Ch) (s : State) : Bool := s.gie && s.ocie.get ch && s.ocf.get ch

/-- `Service(ch)` is enabled (42_sequencer.md R153): requested, and for B only when A's is not (R176). -/
def serviceEnabled (ch : Ch) (s : State) : Bool :=
  match ch with
  | .A => irqRequested .A s
  | .B => irqRequested .B s && !irqRequested .A s

/-- `MATCH(ch)` is enabled: the timer runs (R152). -/
def matchEnabled (s : State) : Bool := decide (s.tclk ≠ 0)

end Sys2Proof.Machine
end

