-- ==== Sys2Proof/Machine/Operands.lean ====
section
/-! DEFINITION. Operand forms and the arithmetic over them: field codes (30_encoding.md R66, 10_state.md R38),
`rnd` (00_scope.md R8), the Clock Divider Table (40_calc.md R86), the Solver (R89 to R95), the Duty-Cycle Codec
(R96 to R101), the response word (30_encoding.md R70) and the error codes (60_exceptions.md R167). -/

namespace Sys2Proof.Machine

/-! ## Field codes -/

/-- The counting mode a `mode` field names; 3 is reserved (R66). -/
def modeOfBits (b : BitVec 2) : Option Mode :=
  if b = 0#2 then some .fast
  else if b = 1#2 then some .phaseCorrect
  else if b = 2#2 then some .ctc
  else none

/-- The code of a counting mode (10_state.md R23, R32). -/
def modeCode : Mode → BitVec 2
  | .fast => 0
  | .phaseCorrect => 1
  | .ctc => 2

/-- The two modes of the data model, for which frequency formulas exist (40_calc.md R88, R95). -/
inductive SignalMode where
  | fast
  | phaseCorrect
  deriving DecidableEq, Repr

/-- The signal mode a `mode` field names; ctc and 3 are refused by SOLVE and PWM (R95). -/
def signalModeOfBits (b : BitVec 2) : Option SignalMode :=
  if b = 0#2 then some .fast
  else if b = 1#2 then some .phaseCorrect
  else none

/-- A signal mode as the timer's counting mode. -/
def timerMode : SignalMode → Mode
  | .fast => .fast
  | .phaseCorrect => .phaseCorrect

/-- The policy a `pol` field names; 6 and 7 are reserved (10_state.md R38). -/
def policyOfBits (b : BitVec 3) : Option Policy :=
  if b = 0#3 then some .disconnected
  else if b = 1#3 then some .toggle
  else if b = 2#3 then some .clear
  else if b = 3#3 then some .set
  else if b = 4#3 then some .nonInverting
  else if b = 5#3 then some .inverting
  else none

/-- The code of a policy (R38). -/
def policyCode : Policy → BitVec 3
  | .disconnected => 0
  | .toggle => 1
  | .clear => 2
  | .set => 3
  | .nonInverting => 4
  | .inverting => 5

/-- `S.POL[ch]` is 4 or 5: the waveform generator makes the pin's level (41_waveform.md R121). -/
def policyIsPwm : Policy → Bool
  | .disconnected => false
  | .toggle => false
  | .clear => false
  | .set => false
  | .nonInverting => true
  | .inverting => true

/-- The level of a written logic value. -/
def levelOfBool (v : Bool) : Level := if v then .high else .low

/-- `PRESCALERS[k-1]` (00_scope.md R6). -/
def prescalerAt (c : Cfg) (k : Nat) : Nat := c.prescalers.getD (k - 1) 0

/-- `psel = 0 or psel > len(PRESCALERS)` fails (41_waveform.md R111). -/
def selectorOk (c : Cfg) (psel : Sel) : Bool :=
  decide (1 ≤ psel.toNat) && decide (psel.toNat ≤ c.prescalers.length)

/-! ## Arithmetic -/

/-- `rnd(a, b)`: `a / b` to the nearest integer, a tie up (00_scope.md R8). -/
def rnd (a b : Nat) : Nat := (2 * a + b) / (2 * b)

/-- `d = period_us * (CLK_HZ div 1_000_000)`, the clock cycles in a period, exact (R86). -/
def periodCycles (c : Cfg) (periodUs : Word32) : Nat := periodUs.toNat * (c.clkHz / 1000000)

/-- The top one prescaler gives, if it is in range (R90, R91). -/
def solveCandidate (clkHz : Nat) (m : SignalMode) (f p : Nat) : Option Nat :=
  match m with
  | .fast =>
    let q := rnd clkHz (p * f)
    if 1 ≤ q ∧ q - 1 ≤ counterMax then some (q - 1) else none
  | .phaseCorrect =>
    let t := rnd clkHz (2 * p * f)
    if 1 ≤ t ∧ t ≤ counterMax then some t else none

/-- The search of R89 over the prescalers from selector `k` on: the first that gives a top in range. -/
def solveSearch (clkHz : Nat) (m : SignalMode) (f : Nat) (k : Nat) : List Nat → Option (Nat × Nat)
  | [] => none
  | p :: rest =>
    match solveCandidate clkHz m f p with
    | some top => some (k, top)
    | none => solveSearch clkHz m f (k + 1) rest

/-- `solve(mode, f)` of R89: the selector and the top, or Unsupported. -/
def solveFrequency (c : Cfg) (m : SignalMode) (f : Nat) : Option (Nat × Nat) :=
  if f = 0 then none
  else if 2 * f > c.clkHz then none
  else solveSearch c.clkHz m f 1 c.prescalers

/-- `encode(top, duty) = rnd(duty * top, 100)` (R97). -/
def encodeDuty (top duty : Nat) : Nat := rnd (duty * top) 100

/-- `decode(top, compare) = (100 * compare) div top`, truncated (R100). -/
def decodeDuty (top compare : Nat) : Nat := 100 * compare / top

/-- A duty cycle TRAIN takes: 1 to 99 (42_sequencer.md R136, R142). -/
def trainDutyOk (d : Byte) : Bool := decide (d.toNat ≠ 0) && decide (d.toNat < 100)

/-! ## The response word (R70) -/

/-- The answers of 60_exceptions.md R167. `unsupportedClock` is reserved and never returned (R168). -/
inductive Err where
  | ok
  | unsupportedFrequency
  | unsupportedClock
  | pulseCountOverflow
  | badOperand
  | illegalCommand
  | badState
  deriving DecidableEq, Repr

/-- The code of an answer (R167). -/
def errCode : Err → Byte
  | .ok => 0
  | .unsupportedFrequency => 1
  | .unsupportedClock => 2
  | .pulseCountOverflow => 3
  | .badOperand => 4
  | .illegalCommand => 5
  | .badState => 6

/-- The fields of a response word, in the order of R70; what is not named is 0. -/
structure Response where
  err : Err := .ok
  psel : Sel := 0
  presc : Half := 0
  top : Half := 0
  val : Half := 0
  deriving DecidableEq, Repr

/-- The response word: `err[63:56] 0[55:51] psel[50:48] presc[47:32] top[31:16] val[15:0]` (R70). -/
def responseWord (r : Response) : Word :=
  (errCode r.err).setWidth 64 <<< 56 ||| r.psel.setWidth 64 <<< 48 ||| r.presc.setWidth 64 <<< 32 |||
    r.top.setWidth 64 <<< 16 ||| r.val.setWidth 64

/-- `err` of a response word. -/
def rspErr (w : Word) : Byte := w.extractLsb' 56 8
/-- `psel` of a response word. -/
def rspPsel (w : Word) : Sel := w.extractLsb' 48 3
/-- `presc` of a response word. -/
def rspPresc (w : Word) : Half := w.extractLsb' 32 16
/-- `top` of a response word. -/
def rspTop (w : Word) : Half := w.extractLsb' 16 16
/-- `val` of a response word. -/
def rspVal (w : Word) : Half := w.extractLsb' 0 16

/-- A one-bit result in the `val` field. -/
def halfOfBool (v : Bool) : Half := if v then 1 else 0

/-- PINSTAT's `val`: `{ zext_11(0), POL, PINDIR, lvl }` (41_waveform.md R127). -/
def pinStatus (pol : Policy) (output level : Bool) : Half :=
  (policyCode pol).setWidth 16 <<< 2 ||| (BitVec.ofBool output).setWidth 16 <<< 1 |||
    (BitVec.ofBool level).setWidth 16

end Sys2Proof.Machine
end

