-- ==== Sys2Proof/Machine/Ops.lean ====
section
/-! DEFINITION. The shared operations: the collaborator interface of 10_state.md R41, the response and the error
(00_scope.md R9), the critical section (20_memory.md R55), taking the compare-match interrupt and returning from it
(60_exceptions.md R177, R178), and what binding, unbinding and shutting down a channel do. -/

namespace Sys2Proof.Machine

/-! ## The collaborator interface (R41) -/

/-- `set_mode(m)`: `S.TMODE <- m`. -/
def setMode (m : Mode) (s : State) : State := { s with tmode := m }

/-- Write top, the input-capture register: `S.ICR <- top`. -/
def writeTop (top : Half) (s : State) : State := { s with icr := top }

/-- `set_prescaler(k)`: `S.TCLK <- k`; 0 stops the timer (R31). -/
def setPrescaler (k : Sel) (s : State) : State := { s with tclk := k }

/-- Write a compare register: `S.OCR[ch] <- v`. -/
def writeCompare (ch : Ch) (v : Half) (s : State) : State := { s with ocr := s.ocr.put ch v }

/-- `set_direction_output(pin)`: `S.PINDIR[ch] <- 1`; nothing sets it back (R40). -/
def setDirectionOutput (ch : Ch) (s : State) : State := { s with pindir := s.pindir.put ch true }

/-- The pin's level becomes `l`: `write_level(pin, v)` writes 0 or 1, and `X` stands for a level the document leaves
undefined (R39). -/
def setLevel (ch : Ch) (l : Level) (s : State) : State := { s with pinlvl := s.pinlvl.put ch l }

/-- `S.POL[ch] <- p` (R38). -/
def setPolicy (ch : Ch) (p : Policy) (s : State) : State := { s with pol := s.pol.put ch p }

/-- `read_level(pin)` of R39: the level, or, when it is `X`, an `ANY` bit drawn anew. -/
def readLevel (ch : Ch) (s : State) : Bool × State :=
  match s.pinlvl.get ch with
  | .low => (false, s)
  | .high => (true, s)
  | .X => (Config.anyBit s.draws, { s with draws := s.draws + 1 })

/-! ## `S.CFG` and `S.SEQ` -/

/-- Install a timer configuration: `S.CFG <- { valid = 1, ... }` (R25). -/
def installConfig (psel : Sel) (top : Half) (m : Mode) (s : State) : State :=
  { s with cfg := { valid := true, psel := psel, top := top, mode := m } }

/-- `S.SEQ <- { values, remaining, active }` (R26). -/
def installTrain (v0 v1 remaining : Half) (ch : Ch) (s : State) : State :=
  { s with seq := { value0 := v0, value1 := v1, remaining := remaining, active := ch } }

/-- `S.SEQ.remaining <- r`. -/
def setRemaining (r : Half) (s : State) : State := { s with seq := { s.seq with remaining := r } }

/-- The sequencer's state, a function of `remaining` (R28); `Done` is never a state between two steps. -/
inductive SeqState where
  | idle
  | running (remaining : Nat)
  deriving DecidableEq, Repr

/-- `Idle` when `remaining = 0`, `Running(remaining)` otherwise (R28). -/
def seqState (s : State) : SeqState :=
  if s.seq.remaining = 0 then .idle else .running s.seq.remaining.toNat

/-! ## Responding (00_scope.md R9, 30_encoding.md R70) -/

/-- The response port carries this word. -/
def writeResponse (r : Response) (s : State) : State := { s with rsp := some (responseWord r) }

/-- `respond(err, psel, presc, top, val)`: the operation ends and returns its response. -/
def respond (r : Response) (s : State) : Result := .next (writeResponse r s)

/-- `raise <Error>`: the operation ends with `respond(<code>)` and writes no state (60_exceptions.md R165, R166). -/
def raise (e : Err) (s : State) : Result := respond { err := e } s

/-! ## The critical section (20_memory.md R55) -/

/-- `critical { body }`: `S.GIE` is 0 for the body, and on every exit path it is again what it was. -/
def critical (body : State → Result) (s : State) : Result :=
  match body (setGie false s) with
  | .next t => .next (setGie s.gie t)
  | .fault r => .fault r
  | .refused r => .refused r

/-! ## The compare-match interrupt as a trap (60_exceptions.md R177, R178) -/

/-- Entry: the pending flag is acknowledged and further interrupts are masked; nothing is saved (R177; the mask is
DEDUCED, notes/assumptions/12.md). -/
def interruptEntry (ch : Ch) (s : State) : State := setGie false (setMatchFlag ch false s)

/-- Return: the global enable is again what it was at entry; nothing else is restored (R177, R178;
DEDUCED, notes/assumptions/12.md). -/
def interruptReturn (gieAtEntry : Bool) (s : State) : State := setGie gieAtEntry s

/-! ## Channels -/

/-- CONFIG's unbinding and DISCONNECT: a bound channel is disconnected and its level becomes `X`; an unbound one is
left alone (41_waveform.md R116, R117). -/
def unbindPin (ch : Ch) (s : State) : State :=
  if s.pol.get ch = .disconnected then s else setLevel ch .X (setPolicy ch .disconnected s)

/-- CONFIG's binding: the policy, the direction, and level `X` under a PWM policy (R111, R113, R121). -/
def bindPin (ch : Ch) (p : Policy) (s : State) : State :=
  let s := setDirectionOutput ch (setPolicy ch p s)
  if policyIsPwm p then setLevel ch .X s else s

/-- The pin of a train that ended, was stopped or was preempted: disconnected and forced to `IDLE_LEVEL`
(42_sequencer.md R140, R144, R153). -/
def shutDownPin (ch : Ch) (s : State) : State :=
  setLevel ch (levelOfBool s.params.idleLevel) (setPolicy ch .disconnected s)

/-- A compare match acts on the pin by its policy (R152). -/
def matchLevel : Policy → Level → Level
  | .disconnected, l => l
  | .toggle, .low => .high
  | .toggle, .high => .low
  | .toggle, .X => .X
  | .clear, _ => .low
  | .set, _ => .high
  | .nonInverting, _ => .X
  | .inverting, _ => .X

end Sys2Proof.Machine
end

