-- ==== Sys2Proof/Machine/Calc.lean ====
section
/-! DEFINITION. The calculators CLKDIV, SOLVE, ENCODE, DECODE (40_calc.md). They read `Cfg` and their operands and
write nothing but the response (R85). -/

namespace Sys2Proof.Machine

/-- CLKDIV (R86): the clock cycles of the period, if they are a divisor. -/
def execClkdiv (periodUs : Word32) (s : State) : Result :=
  let d := periodCycles s.params periodUs
  if d ∈ s.params.divisors then respond { val := BitVec.ofNat 16 d } s
  else raise .unsupportedFrequency s

/-- SOLVE (R89): the first prescaler and the top for a frequency. -/
def execSolve (mode : BitVec 2) (f : Word32) (s : State) : Result :=
  match signalModeOfBits mode with
  | none => raise .badOperand s
  | some m =>
    match solveFrequency s.params m f.toNat with
    | none => raise .unsupportedFrequency s
    | some (k, top) =>
      respond
        { psel := BitVec.ofNat 3 k
          presc := BitVec.ofNat 16 (prescalerAt s.params k)
          top := BitVec.ofNat 16 top } s

/-- ENCODE (R97): the compare value of a duty cycle. -/
def execEncode (top duty : Half) (s : State) : Result :=
  if duty.toNat > 100 then raise .badOperand s
  else respond { val := BitVec.ofNat 16 (encodeDuty top.toNat duty.toNat) } s

/-- DECODE (R100): the duty cycle of a compare value. -/
def execDecode (top compare : Half) (s : State) : Result :=
  if top = 0 then raise .badOperand s
  else if compare.toNat > top.toNat then raise .badOperand s
  else respond { val := BitVec.ofNat 16 (decodeDuty top.toNat compare.toNat) } s

end Sys2Proof.Machine
end

