-- ==== Sys2Proof/Machine/Sequencer.lean ====
section
/-! DEFINITION. The Pulse-Train Sequencer's operations: TRAIN, STOP, POLL, GIEON, GIEOFF, and the service step that
alternates the two compare values (42_sequencer.md). -/

namespace Sys2Proof.Machine

/-- A running train on another channel is shut down as a finished one would be (R140). -/
def preemptOther (ch : Ch) (s : State) : State :=
  if s.seq.remaining ≠ 0 ∧ s.seq.active ≠ ch then
    shutDownPin s.seq.active (setIrqEnable s.seq.active false s)
  else s

/-- The writes of an accepted TRAIN, in R136's order: shared fields first, interrupt enable and timer last. -/
def trainWrites (ch : Ch) (n : Half) (d1 d2 : Byte) (s : State) : State :=
  let s := preemptOther ch s
  let v0 : Half := BitVec.ofNat 16 (encodeDuty s.cfg.top.toNat d1.toNat)
  let v1 : Half := BitVec.ofNat 16 (encodeDuty s.cfg.top.toNat d2.toNat)
  let s := installTrain v0 v1 (BitVec.ofNat 16 (2 * n.toNat)) ch s
  let s := setIrqEnable ch true (setMatchFlag ch false (writeCompare ch s.seq.value0 s))
  setPrescaler s.cfg.psel s

/-- TRAIN (R136): arm a pulse train. -/
def execTrain (ch : Ch) (n : Half) (d1 d2 : Byte) (s : State) : Result :=
  if n = 0 then raise .badOperand s
  else if trainDutyOk d1 = false ∨ trainDutyOk d2 = false then raise .badOperand s
  else if 2 * n.toNat > s.params.remMax then raise .pulseCountOverflow s
  else if s.cfg.valid = false then raise .badState s
  else if s.pol.get ch = .disconnected then raise .badState s
  else critical (fun s => respond { val := BitVec.ofNat 16 (2 * n.toNat) } (trainWrites ch n d1 d2 s)) s

/-- STOP on a running train: the active pin is shut down as the end of a train does, and the sequencer is `Idle`
(R144, R145). -/
def cancelTrain (s : State) : State :=
  if s.seq.remaining ≠ 0 then setRemaining 0 (shutDownPin s.seq.active s) else s

/-- The writes of STOP (R144). -/
def stopWrites (s : State) : State :=
  cancelTrain (setPrescaler 0 (setIrqEnable .B false (setIrqEnable .A false s)))

/-- STOP (R144): cancel. -/
def execStop (s : State) : Result := critical (fun s => respond {} (stopWrites s)) s

/-- POLL (R148): the pulse counter, one aligned integer. -/
def execPoll (s : State) : Result := respond { val := s.seq.remaining } s

/-- GIEON (R150): set the global interrupt enable, return the old one. -/
def execGieon (s : State) : Result := respond { val := halfOfBool s.gie } (setGie true s)

/-- GIEOFF (R151): clear the global interrupt enable, return the old one. -/
def execGieoff (s : State) : Result := respond { val := halfOfBool s.gie } (setGie false s)

/-- The body of the handler (R153): one service fewer owed; the last one shuts the train down, any other programs the
compare value its parity selects. -/
def handleService (ch : Ch) (s : State) : State :=
  if s.seq.remaining ≠ 0 ∧ s.seq.active = ch then
    let s := setRemaining (s.seq.remaining - 1) s
    if s.seq.remaining = 0 then shutDownPin ch (setPrescaler 0 (setIrqEnable ch false s))
    else if s.seq.remaining.toNat % 2 = 1 then writeCompare ch s.seq.value1 s
    else writeCompare ch s.seq.value0 s
  else s

/-- `Service(ch)`: the compare-match interrupt taken, handled and returned from (R153). -/
def serviceChannel (ch : Ch) (s : State) : State :=
  interruptReturn s.gie (handleService ch (interruptEntry ch s))

/-- `MATCH(ch)`: the flag is set and the pin acts by its policy (R152). -/
def matchChannel (ch : Ch) (s : State) : State :=
  setLevel ch (matchLevel (s.pol.get ch) (s.pinlvl.get ch)) (setMatchFlag ch true s)

end Sys2Proof.Machine
end

