-- ==== Sys2Proof/Machine/Waveform.lean ====
section
/-! DEFINITION. The Waveform Mode Controller: CONFIG, DISCONNECT, PWM, RDDUTY, PINSTAT (41_waveform.md). Each runs
inside `critical { }` (20_memory.md R53). -/

namespace Sys2Proof.Machine

/-- CONFIG's last write to the timer: the new prescaler, if the timer is to run or runs already (R111, R114). -/
def retimeTimer (psel : Sel) (run : Bool) (s : State) : State :=
  if run = true ∨ s.tclk ≠ 0 then setPrescaler psel s else s

/-- The writes of an accepted CONFIG, in R111's order. -/
def configWrites (ch : Ch) (m : Mode) (p : Policy) (psel : Sel) (top : Half) (run : Bool) (s : State) : State :=
  let s := retimeTimer psel run (installConfig psel top m (writeTop top (setMode m s)))
  if p = .disconnected then unbindPin ch s else bindPin ch p s

/-- CONFIG (R111). -/
def execConfig (ch : Ch) (mode : BitVec 2) (pol : BitVec 3) (psel : Sel) (top : Half) (run : Bool) (s : State) :
    Result :=
  critical
    (fun s =>
      match modeOfBits mode with
      | none => raise .badOperand s
      | some m =>
        match policyOfBits pol with
        | none => raise .badOperand s
        | some p =>
          if selectorOk s.params psel = false then raise .badOperand s
          else if top = 0 then raise .badOperand s
          else respond {} (configWrites ch m p psel top run s))
    s

/-- DISCONNECT (R116). -/
def execDisconnect (ch : Ch) (s : State) : Result := critical (fun s => respond {} (unbindPin ch s)) s

/-- The writes of a bypassed PWM (R118, R119): the channel is unbound and its pin is a static output. -/
def bypassWrites (ch : Ch) (level : Bool) (s : State) : State :=
  setLevel ch (levelOfBool level) (setDirectionOutput ch (setPolicy ch .disconnected s))

/-- The writes of a PWM that is not bypassed, in R118's order. -/
def pwmWrites (ch : Ch) (m : SignalMode) (k : Sel) (top compare : Half) (s : State) : State :=
  let s := writeCompare ch compare (writeTop top (setMode (timerMode m) s))
  let s := installConfig k top (timerMode m) s
  setPrescaler k (setLevel ch .X (setDirectionOutput ch (setPolicy ch .nonInverting s)))

/-- PWM (R118). -/
def execPwm (ch : Ch) (mode : BitVec 2) (f : Word32) (duty : Byte) (s : State) : Result :=
  critical
    (fun s =>
      match signalModeOfBits mode with
      | none => raise .badOperand s
      | some m =>
        if duty.toNat > 100 then raise .badOperand s
        else if duty.toNat = 0 ∨ duty.toNat = 100 then respond {} (bypassWrites ch (duty.toNat == 100) s)
        else
          match solveFrequency s.params m f.toNat with
          | none => raise .unsupportedFrequency s
          | some (k, top) =>
            let compare := encodeDuty top duty.toNat
            respond
              { psel := BitVec.ofNat 3 k
                presc := BitVec.ofNat 16 (prescalerAt s.params k)
                top := BitVec.ofNat 16 top
                val := BitVec.ofNat 16 compare }
              (pwmWrites ch m (BitVec.ofNat 3 k) (BitVec.ofNat 16 top) (BitVec.ofNat 16 compare) s))
    s

/-- RDDUTY (R124): the duty cycle the compare and top registers hold. -/
def execRdduty (ch : Ch) (s : State) : Result :=
  critical
    (fun s =>
      let top := s.icr
      let c := s.ocr.get ch
      if top = 0 then raise .badState s
      else if c.toNat > top.toNat then raise .badState s
      else respond { top := top, val := BitVec.ofNat 16 (decodeDuty top.toNat c.toNat) } s)
    s

/-- PINSTAT (R127): the pin's level, direction and policy. -/
def execPinstat (ch : Ch) (s : State) : Result :=
  critical
    (fun s =>
      match readLevel ch s with
      | (level, t) => respond { val := pinStatus (s.pol.get ch) (s.pindir.get ch) level } t)
    s

end Sys2Proof.Machine
end

