-- ==== Sys2Proof/Machine/Dispatch.lean ====
section
/-! DEFINITION. One arm for each operation of 30_encoding.md R72. -/

namespace Sys2Proof.Machine

def exec (i : Instr) (s : State) : Host.Outcome State Fault Refusal :=
  match i with
  | .clkdiv periodUs => Sys2Proof.Machine.execClkdiv periodUs s
  | .solve mode f => Sys2Proof.Machine.execSolve mode f s
  | .encode top duty => Sys2Proof.Machine.execEncode top duty s
  | .decode top compare => Sys2Proof.Machine.execDecode top compare s
  | .config ch mode pol psel top run => Sys2Proof.Machine.execConfig ch mode pol psel top run s
  | .disconnect ch => Sys2Proof.Machine.execDisconnect ch s
  | .pwm ch mode f duty => Sys2Proof.Machine.execPwm ch mode f duty s
  | .rdduty ch => Sys2Proof.Machine.execRdduty ch s
  | .pinstat ch => Sys2Proof.Machine.execPinstat ch s
  | .train ch n d1 d2 => Sys2Proof.Machine.execTrain ch n d1 d2 s
  | .stop => Sys2Proof.Machine.execStop s
  | .poll => Sys2Proof.Machine.execPoll s
  | .gieon => Sys2Proof.Machine.execGieon s
  | .gieoff => Sys2Proof.Machine.execGieoff s

end Sys2Proof.Machine
end

