-- ==== Sys2Proof/Machine/Agents.lean ====
section
/-! DEFINITION. What each agent's move does (20_memory.md R51): a host command, whole or byte by byte, a compare
match, a service; and when a move is enabled. -/

namespace Sys2Proof.Machine

/-- `Host(cmd)`: the operation the word decodes to, or, for an illegal word, `ERR_ILLEGAL_COMMAND` and no change of
state (30_encoding.md R72, R73). -/
def hostCommand (cmd : Word) (s : State) : Result :=
  match decode cmd with
  | .ok i => exec i s
  | .error _ => raise .illegalCommand s

/-- One byte of a command word over a narrower bus: the word takes effect only when its eighth byte has arrived
(20_memory.md R54). -/
def receiveByte (b : Byte) (s : State) : Result :=
  if s.rx.length < 7 then .next { s with rx := s.rx ++ [b] }
  else hostCommand (wordOfBytes (s.rx ++ [b])) { s with rx := [] }

/-- The bytes of a response word the host can take over a narrower bus, the next one first: the rest of the word being
carried, or, when none is, the response port's word from its least significant byte (20_memory.md R54,
notes/assumptions/10.md). -/
def responseBytes (s : State) : List Byte :=
  if s.tx = [] then
    match s.rsp with
    | none => []
    | some w => bytesOfWord w
  else s.tx

/-- The host gets one byte of a response word: it has the response only when the eighth has come (R54). -/
def deliverByte (b : Byte) (s : State) : State :=
  if s.hostRx.length < 7 then { s with hostRx := s.hostRx ++ [b] }
  else { s with hostRx := [], hostRsp := some (wordOfBytes (s.hostRx ++ [b])) }

/-- One byte of a response word is carried over a narrower bus. The first byte latches the word, so that all eight are
bytes of one response whatever is answered in between (R54, notes/assumptions/10.md). -/
def sendByte (s : State) : State :=
  match responseBytes s with
  | [] => s
  | b :: rest => deliverByte b { s with tx := rest }

/-- The move is enabled in this state (20_memory.md R51); a command, whole or byte by byte, always is, and a byte of a
response can be taken when there is a response. -/
def moveEnabled (e : Event) (s : State) : Bool :=
  match e with
  | .host _ => true
  | .busByte _ => true
  | .busRead => decide (responseBytes s ≠ [])
  | .compareMatch _ => matchEnabled s
  | .service ch => serviceEnabled ch s

/-- The move an enabled agent makes. -/
def performMove (e : Event) (s : State) : Result :=
  match e with
  | .host cmd => hostCommand cmd s
  | .busByte b => receiveByte b s
  | .busRead => .next (sendByte s)
  | .compareMatch ch => .next (matchChannel ch s)
  | .service ch => .next (serviceChannel ch s)

/-- A scheduled move: made when R51 enables it, refused by name when it does not. -/
def takeMove (e : Event) (s : State) : Result :=
  if moveEnabled e s then performMove e s else .refused (.notEnabled e)

/-- The bits a table row's word is made of: the low `nbits` bits of `w`, every bit above them zero. -/
def commandOfTable (nbits w : Nat) : Word := BitVec.ofNat 64 (w % 2 ^ nbits)

end Sys2Proof.Machine
end

