-- ==== Sys2Proof/Machine/Step.lean ====
section
/-! DEFINITION. One step: the next scheduled move (20_memory.md R51). -/

namespace Sys2Proof.Machine

/-- One step. With nothing scheduled the machine waits and nothing changes (70_reset_and_hazards.md R192,
notes/assumptions/2.md). -/
def step (s : State) : Host.Outcome State Fault Refusal :=
  match s.schedule with
  | [] => .next s
  | e :: rest => takeMove e { s with schedule := rest }

/-- The host's next move is to issue the given table word (PWMCALC fetches nothing, 10_state.md R21; commands come
from outside, notes/assumptions/2.md). -/
def State.withFetchWord (s : State) (nbits w : Nat) : State :=
  { s with schedule := .host (commandOfTable nbits w) :: s.schedule }

end Sys2Proof.Machine
end

