-- ==== Sys2Proof/Machine/HostSide.lean ====
section
/-! DEFINITION. What the host does around the commands: the pseudo-instructions of 30_encoding.md R76, which are
host-side expansions and not encodings, and the spelling of R75 (notes/assumptions/11.md). -/

namespace Sys2Proof.Machine

/-- `DRIVE ch, v` expands to `PWM ch, fast, 1, 0` or `PWM ch, fast, 1, 100` (R76). -/
def driveInstr (ch : Ch) (level : Bool) : Instr := .pwm ch 0 1 (if level then 100 else 0)

/-- `WAITIDLE` stops repeating POLL when the response has `val = 0` (R76). -/
def waitIdleDone (rsp : Word) : Bool := decide (rspVal rsp = 0)

/-- `WAITIDLE`, at most `fuel` POLLs, the rest of the machine making its next scheduled move between two of them
(R76, 42_sequencer.md R149): the state in which POLL answered 0, if it did. -/
def waitIdle : Nat → State → Option State
  | 0, _ => none
  | fuel + 1, s =>
    match exec .poll s with
    | .next t =>
      if t.rsp.any waitIdleDone then some t
      else
        match step t with
        | .next u => waitIdle fuel u
        | .fault _ => none
        | .refused _ => none
    | .fault _ => none
    | .refused _ => none

/-- `CRITICAL { ops }` begins with GIEOFF, whose `val` the host keeps as `saved` (R76). -/
def criticalOpen : Instr := .gieoff

/-- `CRITICAL { ops }` ends with GIEON if `saved = 1`, and with nothing otherwise (R76). -/
def criticalClose (gieoffResponse : Word) : List Instr :=
  if rspVal gieoffResponse = 1 then [.gieon] else []

/-- The host issues operations one after another. -/
def issueAll : List Instr → State → Result
  | [], s => .next s
  | i :: rest, s =>
    match exec i s with
    | .next t => issueAll rest t
    | .fault r => .fault r
    | .refused r => .refused r

/-- Spelling of a channel (R75). -/
def asmCh : Ch → String
  | .A => "A"
  | .B => "B"

/-- Spelling of a `mode` field (R75); the reserved code has none and is written as its number. -/
def asmMode (b : BitVec 2) : String :=
  match modeOfBits b with
  | some .fast => "fast"
  | some .phaseCorrect => "phase"
  | some .ctc => "ctc"
  | none => toString b.toNat

/-- Spelling of a `pol` field (R75); the reserved codes have none and are written as their numbers. -/
def asmPol (b : BitVec 3) : String :=
  match policyOfBits b with
  | some .disconnected => "disc"
  | some .toggle => "toggle"
  | some .clear => "clear"
  | some .set => "set"
  | some .nonInverting => "noninv"
  | some .inverting => "inv"
  | none => toString b.toNat

/-- Operands separated by commas. -/
def asmOperands (ops : List String) : String := String.intercalate ", " ops

/-- A command as its mnemonic and its operands in the order of R75's table, numbers in decimal. -/
def asm : Instr → String
  | .clkdiv p => "CLKDIV " ++ asmOperands [toString p.toNat]
  | .solve mode f => "SOLVE " ++ asmOperands [asmMode mode, toString f.toNat]
  | .encode top duty => "ENCODE " ++ asmOperands [toString top.toNat, toString duty.toNat]
  | .decode top compare => "DECODE " ++ asmOperands [toString top.toNat, toString compare.toNat]
  | .config ch mode pol psel top run =>
    "CONFIG " ++ asmOperands
      [asmCh ch, asmMode mode, asmPol pol, toString psel.toNat, toString top.toNat, if run then "run" else "hold"]
  | .disconnect ch => "DISCONNECT " ++ asmCh ch
  | .pwm ch mode f duty => "PWM " ++ asmOperands [asmCh ch, asmMode mode, toString f.toNat, toString duty.toNat]
  | .rdduty ch => "RDDUTY " ++ asmCh ch
  | .pinstat ch => "PINSTAT " ++ asmCh ch
  | .train ch n d1 d2 =>
    "TRAIN " ++ asmOperands [asmCh ch, toString n.toNat, toString d1.toNat, toString d2.toNat]
  | .stop => "STOP"
  | .poll => "POLL"
  | .gieon => "GIEON"
  | .gieoff => "GIEOFF"

end Sys2Proof.Machine
end

