-- ==== Sys2Proof/Safety.lean ====
section
/-! DEFINITION. The terms claims are made in: the invariants of 10_state.md R29 and those the other rules imply, the
command a step issues, and runs that leave the train alone. -/

namespace Sys2Proof.Machine

/-- The invariants every reachable state satisfies. -/
structure Inv (s : State) : Prop where
  /-- INV1 of R29: an interrupt is enabled exactly for the active channel of a running train. -/
  enabledIffActive : ∀ c, s.ocie.get c = true ↔ (s.seq.remaining ≠ 0 ∧ s.seq.active = c)
  /-- INV2 of R29: a running train has a running timer. -/
  trainClocked : s.seq.remaining ≠ 0 → s.tclk ≠ 0
  /-- INV3 of R29. -/
  trainConfigured : s.seq.remaining ≠ 0 → s.cfg.valid = true
  /-- INV4 of R29; the mode's codes are legal by its type. -/
  configLegal : s.cfg.valid = true →
    1 ≤ s.cfg.psel.toNat ∧ s.cfg.psel.toNat ≤ s.params.prescalers.length ∧ 1 ≤ s.cfg.top.toNat ∧
      s.cfg.top.toNat ≤ counterMax
  /-- INV5 of R29. -/
  clockInList : s.tclk.toNat ≤ s.params.prescalers.length
  /-- The pulse counter fits in `REM_BITS` bits (R26). -/
  counterFits : s.seq.remaining.toNat ≤ s.params.remMax
  /-- The timer's registers hold the active configuration (R25, 41_waveform.md R114). -/
  timerConfigured : s.cfg.valid = true → s.icr = s.cfg.top ∧ s.tmode = s.cfg.mode
  /-- A running timer runs from the active configuration's prescaler (41_waveform.md R114). -/
  clockIsConfigured : s.tclk ≠ 0 → s.cfg.valid = true ∧ s.tclk = s.cfg.psel
  /-- Under a PWM policy the level is `X` (41_waveform.md R121). -/
  pwmLevelUndefined : ∀ c, policyIsPwm (s.pol.get c) = true → s.pinlvl.get c = .X
  /-- A bound pin is an output (41_waveform.md R113). -/
  boundIsOutput : ∀ c, s.pol.get c ≠ .disconnected → s.pindir.get c = true
  /-- A command word still arriving has fewer than eight bytes (20_memory.md R54). -/
  partialWord : s.rx.length < 8
  /-- A response word on its way over a narrower bus is whole: its bytes are eight, some with the host and some still
  to come, or none is on its way (20_memory.md R54). -/
  partialResponse : s.tx = [] ∧ s.hostRx = [] ∨
    1 ≤ s.tx.length ∧ 1 ≤ s.hostRx.length ∧ s.tx.length + s.hostRx.length = 8

/-! ## The solver's answer, without its search (40_calc.md R88 to R94) -/

/-- `top` is the exact top of the mode's formula rounded to the nearest integer, a tie up: fast inverts
`CLK_HZ / (p * (top + 1))` (R90), phase-correct inverts `CLK_HZ / (2 * p * top)` (R91). -/
def topIsNearest (clkHz f p top : Nat) : SignalMode → Prop
  | .fast => 2 * (p * f) * (top + 1) ≤ 2 * clkHz + p * f ∧ 2 * clkHz + p * f < 2 * (p * f) * (top + 2)
  | .phaseCorrect =>
    2 * (2 * p * f) * top ≤ 2 * clkHz + 2 * p * f ∧ 2 * clkHz + 2 * p * f < 2 * (2 * p * f) * (top + 1)

/-- The document's ranges: `[0, counter_max]` in fast mode, `[1, counter_max]` in phase-correct mode (R89). -/
def topInRange (top : Nat) : SignalMode → Prop
  | .fast => top ≤ counterMax
  | .phaseCorrect => 1 ≤ top ∧ top ≤ counterMax

/-- The prescaler `p` gives a top in range. -/
def prescalerServes (clkHz : Nat) (m : SignalMode) (f p : Nat) : Prop :=
  ∃ top, topIsNearest clkHz f p top m ∧ topInRange top m

/-- `(k, top)` with `p = PRESCALERS[k-1]` is the document's answer for `f`: the first prescaler in ascending order
whose rounded top is in range, for a frequency that is neither 0 nor above half the clock (R89, R92). -/
structure SolvesTo (c : Cfg) (m : SignalMode) (f k p top : Nat) : Prop where
  frequencyPositive : 0 < f
  frequencyBelowHalf : 2 * f ≤ c.clkHz
  selectorPositive : 1 ≤ k
  prescaler : c.prescalers[k - 1]? = some p
  nearest : topIsNearest c.clkHz f p top m
  inRange : topInRange top m
  first : ∀ i q, i < k - 1 → c.prescalers[i]? = some q → ¬prescalerServes c.clkHz m f q

/-- No prescaler and top answer for `f`, or `f` is 0 or above half the clock (R89, R92). -/
def Unsolvable (c : Cfg) (m : SignalMode) (f : Nat) : Prop :=
  f = 0 ∨ c.clkHz < 2 * f ∨ ∀ p, p ∈ c.prescalers → ¬prescalerServes c.clkHz m f p

/-! ## Runs -/

/-- The command word whose last bit the next step of `s` receives, if it receives one (R51, R54). -/
def issuedWord (s : State) : Option Word :=
  match s.schedule with
  | .host cmd :: _ => some cmd
  | .busByte b :: _ => if s.rx.length < 7 then none else some (wordOfBytes (s.rx ++ [b]))
  | _ => none

/-- The operation the next step of `s` performs, if it performs one. -/
def issuedInstr (s : State) : Option Instr :=
  match issuedWord s with
  | none => none
  | some w =>
    match decode w with
    | .ok i => some i
    | .error _ => none

/-- The operation arms or cancels a train: TRAIN or STOP, the host-side writers of `S.SEQ` (10_state.md R27). -/
def writesTrain : Instr → Bool
  | .train _ _ _ _ => true
  | .stop => true
  | .clkdiv _ => false
  | .solve _ _ => false
  | .encode _ _ => false
  | .decode _ _ => false
  | .config _ _ _ _ _ _ => false
  | .disconnect _ => false
  | .pwm _ _ _ _ => false
  | .rdduty _ => false
  | .pinstat _ => false
  | .poll => false
  | .gieon => false
  | .gieoff => false

/-- The operation is a calculator (40_calc.md). -/
def isCalculator : Instr → Bool
  | .clkdiv _ => true
  | .solve _ _ => true
  | .encode _ _ => true
  | .decode _ _ => true
  | .config _ _ _ _ _ _ => false
  | .disconnect _ => false
  | .pwm _ _ _ _ => false
  | .rdduty _ => false
  | .pinstat _ => false
  | .train _ _ _ _ => false
  | .stop => false
  | .poll => false
  | .gieon => false
  | .gieoff => false

/-- The next step of `s` is a service. -/
def servesNext (s : State) : Bool :=
  match s.schedule with
  | .service _ :: _ => true
  | _ => false

/-- `k` steps, stopping at the first that is no step of the machine. -/
def runSteps : Nat → State → Result
  | 0, s => .next s
  | k + 1, s =>
    match step s with
    | .next t => runSteps k t
    | .fault r => .fault r
    | .refused r => .refused r

/-- `k` steps in which no TRAIN and no STOP is issued: the state after them and how many of them were services;
`none` if one of the steps is no step of the machine or issues a TRAIN or a STOP (42_sequencer.md R155). -/
def undisturbedRun : Nat → State → Option (State × Nat)
  | 0, s => some (s, 0)
  | k + 1, s =>
    if (issuedInstr s).any writesTrain then none
    else
      match step s with
      | .next t =>
        match undisturbedRun k t with
        | some (u, n) => some (u, n + if servesNext s then 1 else 0)
        | none => none
      | .fault _ => none
      | .refused _ => none

/-- `r` matches of a channel, each serviced before the next (42_sequencer.md R158, 70_reset_and_hazards.md R203). -/
def promptSchedule (ch : Ch) : Nat → List Event
  | 0 => []
  | r + 1 => .compareMatch ch :: .service ch :: promptSchedule ch r

end Sys2Proof.Machine
end

