-- ==== Sys2Proof/WellFormed.lean ====
section
/-! DEFINITION. Which operations carry only legal operand values. Every term of `Instr` has an encoding (each field
has its exact width), so the check is the one of 30_encoding.md R74: no field the format uses holds a reserved value.
An operation that fails it still decodes and is refused by its meaning with `ERR_BAD_OPERAND`. -/

namespace Sys2Proof

/-- The two modes SOLVE and PWM take: fast and phase_correct (R74, 40_calc.md R95). -/
def signalModeLegal (mode : BitVec 2) : Bool := decide (mode.toNat ≤ 1)

/-- A selector names an element of `PRESCALERS` (R66, R74). -/
def selectorLegal (c : Cfg) (psel : Sel) : Bool :=
  decide (1 ≤ psel.toNat) && decide (psel.toNat ≤ c.prescalers.length)

/-- No operand field holds a value R74 calls reserved: `mode = 3`, `mode = 2` where only fast and phase_correct are
taken, `pol` 6 or 7, a selector outside the list, a duty cycle above 100. -/
def Instr.wellFormed (c : Cfg) : Instr → Bool
  | .clkdiv _ => true
  | .solve mode _ => signalModeLegal mode
  | .encode _ duty => decide (duty.toNat ≤ 100)
  | .decode _ _ => true
  | .config _ mode pol psel _ _ => decide (mode.toNat ≤ 2) && decide (pol.toNat ≤ 5) && selectorLegal c psel
  | .disconnect _ => true
  | .pwm _ mode _ duty => signalModeLegal mode && decide (duty.toNat ≤ 100)
  | .rdduty _ => true
  | .pinstat _ => true
  | .train _ _ d1 d2 => decide (d1.toNat ≤ 100) && decide (d2.toNat ≤ 100)
  | .stop => true
  | .poll => true
  | .gieon => true
  | .gieoff => true

end Sys2Proof
end

