-- ==== Sys2Proof/Certificates/Slice0/Obligations.lean ====
section
/-! DEFINITION. The statements for the provers, in the order of the spec's files. "D<n>" is a decision the spec marks
as its own in 92_eei_decisions.md; "log <n>" is notes/assumptions/<n>.md. PWMCALC has no memory (10_state.md R47), so
no frame speaks of one; a frame is the equality of whole states, each written field named. -/

open Sys2Proof Sys2Proof.Machine

/-! ## Encoding (30_encoding.md) -/

/-- R65 to R72 (layout D3, codes D12): every operation's word decodes to that operation, with every operand at every
value its field admits. -/
def Obligations.DecodeOfEncodeIsTheOperation : Prop :=
  ∀ i : Instr, decode (encode i) = .ok i

/-- R69, R72: a word that decodes is the one word of its operation, so no two words mean the same. -/
def Obligations.EncodeOfDecodeIsTheWord : Prop :=
  ∀ (w : Word) (i : Instr), decode w = .ok i → encode i = w

/-- R69, R72, R73 (layout D3): a word decodes exactly when its `op` is assigned, `rsv` is zero and every field outside
its format is zero; it then decodes to an operation of the row its `op` names. -/
def Obligations.WordDecodesIffUnusedBitsAreZero : Prop :=
  ∀ w : Word,
    ((∃ i, decode w = .ok i) ↔ ∃ o, fieldOp w = opcodeCode o ∧ unusedZero (opcodeFormat o) w) ∧
      ∀ i, decode w = .ok i → fieldOp w = opcodeCode (opcodeOfInstr i)

/-- R75: the words the spec writes out for a decoder test. -/
def Obligations.SpecSampleWordsDecode : Prop :=
  decode 0x020000000007A120 = .ok (.solve 0 500000) ∧
    decode 0x0300000003E8001E = .ok (.encode 1000 30) ∧
    decode 0x1010C000000003E7 = .ok (.config .A 0 4 1 999 true) ∧
    decode 0x12A0001E000003E8 = .ok (.pwm .B 1 1000 30) ∧
    decode 0x2000000042210003 = .ok (.train .A 3 33 66)

/-- R70 (layout D4), R167 (numbers D17): where each field of a response stands, that bits 55:51 are 0, and the codes. -/
def Obligations.ResponseWordHoldsItsFields : Prop :=
  (∀ r : Response,
    (responseWord r).extractLsb' 56 8 = errCode r.err ∧ (responseWord r).extractLsb' 51 5 = 0 ∧
      (responseWord r).extractLsb' 48 3 = r.psel ∧ (responseWord r).extractLsb' 32 16 = r.presc ∧
      (responseWord r).extractLsb' 16 16 = r.top ∧ (responseWord r).extractLsb' 0 16 = r.val) ∧
    errCode .ok = 0 ∧ errCode .unsupportedFrequency = 1 ∧ errCode .unsupportedClock = 2 ∧
    errCode .pulseCountOverflow = 3 ∧ errCode .badOperand = 4 ∧ errCode .illegalCommand = 5 ∧ errCode .badState = 6

/-! ## The step (20_memory.md) -/

/-- R51, R72: a command word that decodes is run: the step is the operation, at the state whose schedule has moved on
(the schedule is the model's, log 1). -/
def Obligations.StepRunsTheDecodedOperation : Prop :=
  ∀ (s : State) (w : Word) (i : Instr) (rest : List Event),
    s.schedule = .host w :: rest → decode w = .ok i → step s = exec i { s with schedule := rest }

/-- R73: a word that decodes to `Illegal` is answered `ERR_ILLEGAL_COMMAND` and changes no state. -/
def Obligations.IllegalWordIsAnsweredAndChangesNothing : Prop :=
  ∀ (s : State) (w : Word) (e : Illegal) (rest : List Event),
    s.schedule = .host w :: rest → decode w = .error e →
      step s = .next { s with schedule := rest, rsp := some 0x0500000000000000 }

/-- R51: the step makes a scheduled move exactly when it is enabled: a host command always, a match while the timer
runs, a service while it is unmasked, enabled, pending and, for B, not behind A's. The moves of a narrower bus are the
model's, not R51's (log 10): a byte of a command always, a byte of a response while there is one. A move that is not
enabled is no step of the hardware: the model refuses it by name and does nothing (log 1). -/
def Obligations.StepMakesExactlyTheEnabledMoves : Prop :=
  ∀ (s : State) (e : Event) (rest : List Event), s.schedule = e :: rest →
    ((∃ t, step s = .next t) ↔
      match e with
      | .host _ => True
      | .busByte _ => True
      | .busRead => s.tx ≠ [] ∨ s.rsp ≠ none
      | .compareMatch _ => s.tclk ≠ 0
      | .service .A => s.gie = true ∧ s.ocie.a = true ∧ s.ocf.a = true
      | .service .B =>
        s.gie = true ∧ s.ocie.b = true ∧ s.ocf.b = true ∧ ¬(s.gie = true ∧ s.ocie.a = true ∧ s.ocf.a = true)) ∧
      ((¬∃ t, step s = .next t) → step s = .refused (.notEnabled e))

/-- R60 (a), R70, R167, R168: every command word, whatever its bits, gets exactly one response, its code is one of 0, 1,
3, 4, 5, 6, and on failure the response carries nothing but the code. -/
def Obligations.EveryCommandWordIsAnswered : Prop :=
  ∀ (s : State) (w : Word) (rest : List Event), s.schedule = .host w :: rest →
    ∃ t r, step s = .next t ∧ t.rsp = some r ∧ t.schedule = rest ∧
      (rspErr r = 0 ∨ r = 0x0100000000000000 ∨ r = 0x0300000000000000 ∨ r = 0x0400000000000000 ∨
        r = 0x0500000000000000 ∨ r = 0x0600000000000000)

/-- R54 (D8), for a command word and for a response word: over a narrower bus a word is eight bytes, least significant
first. The bytes of a command do what the whole word does at once, and nothing happens before the last of them; the
bytes of a response are those of the port's word, and the host has the response only with the last of them. (The moves
`busByte` and `busRead` and the fields `rx`, `tx`, `hostRx` and `hostRsp` are the model's, log 10.) -/
def Obligations.EightBusBytesAreOneCommand : Prop :=
  ∀ (s : State) (w : Word) (rest : List Event),
    (s.rx = [] → s.schedule = (bytesOfWord w).map .busByte ++ rest →
      (∀ k, k ≤ 7 → runSteps k s = .next { s with schedule := s.schedule.drop k, rx := (bytesOfWord w).take k }) ∧
      runSteps 8 s = step { s with schedule := .host w :: rest }) ∧
    (s.tx = [] → s.hostRx = [] → s.rsp = some w → s.schedule = List.replicate 8 .busRead ++ rest →
      (∀ k, 1 ≤ k → k ≤ 7 →
        runSteps k s = .next
          { s with
            schedule := s.schedule.drop k
            tx := (bytesOfWord w).drop k
            hostRx := (bytesOfWord w).take k }) ∧
      runSteps 8 s = .next { s with schedule := rest, hostRsp := some w })

/-! ## The calculators (40_calc.md) -/

/-- R86 (table and relation D33): CLKDIV answers the clock cycles of the period, exact, if they are a divisor, and
`ERR_UNSUPPORTED_FREQUENCY` otherwise; nothing but the response changes. -/
def Obligations.ClkdivAnswersTheDivisor : Prop :=
  ∀ (p : Word32) (s : State),
    (p.toNat * (s.params.clkHz / 1000000) ∈ s.params.divisors →
      ∃ d : Half, d.toNat = p.toNat * (s.params.clkHz / 1000000) ∧
        exec (.clkdiv p) s = .next { s with rsp := some (responseWord { val := d }) }) ∧
    (p.toNat * (s.params.clkHz / 1000000) ∉ s.params.divisors →
      exec (.clkdiv p) s = .next { s with rsp := some (responseWord { err := .unsupportedFrequency }) })

/-- R89 to R92 (tie rule D13): SOLVE answers the first prescaler in ascending order whose rounded top is in range, and
that top; nothing but the response changes. -/
def Obligations.SolveAnswersTheFirstPrescaler : Prop :=
  ∀ (m : SignalMode) (f : Word32) (s : State) (k p top : Nat),
    SolvesTo s.params m f.toNat k p top →
      exec (.solve (modeCode (timerMode m)) f) s = .next
        { s with
          rsp := some (responseWord
            { psel := BitVec.ofNat 3 k, presc := BitVec.ofNat 16 p, top := BitVec.ofNat 16 top }) }

/-- R89, R92, R95 (D19): SOLVE refuses ctc and mode 3 before it looks at the frequency, and a frequency with no answer
with `ERR_UNSUPPORTED_FREQUENCY`; nothing but the response changes. -/
def Obligations.SolveRefusesModesAndFrequencies : Prop :=
  ∀ (mode : BitVec 2) (f : Word32) (s : State),
    (2 ≤ mode.toNat → exec (.solve mode f) s = .next { s with rsp := some (responseWord { err := .badOperand }) }) ∧
    (∀ m, mode = modeCode (timerMode m) → Unsolvable s.params m f.toNat →
      exec (.solve mode f) s = .next { s with rsp := some (responseWord { err := .unsupportedFrequency }) })

/-- R89, R85: for every admitted configuration, mode and frequency SOLVE has exactly one answer or none: it completes
with a response that succeeds exactly with the selector, prescaler and top the document's relation allows, so that no
second answer is allowed, and fails with `ERR_UNSUPPORTED_FREQUENCY` exactly where the relation allows none; nothing but
the response changes. -/
def Obligations.EveryFrequencyHasOneAnswerOrNone : Prop :=
  ∀ (m : SignalMode) (f : Word32) (s : State), ∃ r : Word,
    exec (.solve (modeCode (timerMode m)) f) s = .next { s with rsp := some r } ∧
      (∀ k p top, SolvesTo s.params m f.toNat k p top ↔
        rspErr r = errCode .ok ∧ (rspPsel r).toNat = k ∧ (rspPresc r).toNat = p ∧ (rspTop r).toNat = top) ∧
      (Unsolvable s.params m f.toNat ↔ rspErr r = errCode .unsupportedFrequency)

/-- R94 (a), R102: an answer never has `top = 0`, and its selector, prescaler and top fit their fields, for every
configuration R6 admits. -/
def Obligations.SolvedTopIsNeverZero : Prop :=
  ∀ (c : Cfg) (m : SignalMode) (f k p top : Nat), SolvesTo c m f k p top →
    1 ≤ top ∧ top ≤ 65535 ∧ 1 ≤ k ∧ k ≤ 7 ∧ 1 ≤ p ∧ p ≤ 65535

/-- R94 (b): with the default prescalers and either clock, every frequency from 1 to half the clock has an answer in
both modes. -/
def Obligations.DefaultPrescalersServeEveryFrequency : Prop :=
  ∀ (c : Cfg) (m : SignalMode) (f : Nat), c.prescalers = [1, 8, 64, 256, 1024] → 1 ≤ f → f ≤ c.clkHz / 2 →
    ∃ k p top, SolvesTo c m f k p top

/-- R94 (d): the answer has the smallest prescaler that serves and so the largest top. -/
def Obligations.SolvedTopIsTheLargest : Prop :=
  ∀ (c : Cfg) (m : SignalMode) (f k p top p' top' : Nat), SolvesTo c m f k p top → p' ∈ c.prescalers →
    topIsNearest c.clkHz f p' top' m → topInRange top' m → p ≤ p' ∧ top' ≤ top

/-- R93: a SOLVE that fails with `ERR_UNSUPPORTED_FREQUENCY` answers the code and zeros, so `top = 0`; a successful one
never has `top = 0`; and CONFIG accepts no `top = 0`. -/
def Obligations.TopZeroIsTheUnsupportedSentinel : Prop :=
  ∀ s : State,
    (∀ mode f t r, exec (.solve mode f) s = .next t → t.rsp = some r →
      (rspErr r = errCode .ok → rspTop r ≠ 0) ∧
        (rspErr r = errCode .unsupportedFrequency →
          r = responseWord { err := .unsupportedFrequency } ∧ rspTop r = 0)) ∧
    ∀ ch mode pol psel run,
      exec (.config ch mode pol psel 0 run) s = .next { s with rsp := some (responseWord { err := .badOperand }) }

/-- R97 (tie rule D13): ENCODE answers `(duty * top + 50) div 100`, and refuses a duty cycle above 100; nothing but the
response changes. -/
def Obligations.EncodeAnswersTheRoundedCompareValue : Prop :=
  ∀ (top duty : Half) (s : State),
    (duty.toNat ≤ 100 → ∃ c : Half, c.toNat = (duty.toNat * top.toNat + 50) / 100 ∧ c.toNat ≤ top.toNat ∧
      exec (.encode top duty) s = .next { s with rsp := some (responseWord { val := c }) }) ∧
    (100 < duty.toNat →
      exec (.encode top duty) s = .next { s with rsp := some (responseWord { err := .badOperand }) })

/-- R100 (truncation D14): DECODE answers `(100 * compare) div top`, at most 100, and refuses `top = 0` and a compare
value above the top; nothing but the response changes. -/
def Obligations.DecodeAnswersTheTruncatedDuty : Prop :=
  ∀ (top c : Half) (s : State),
    (top ≠ 0 → c.toNat ≤ top.toNat → ∃ d : Half, d.toNat = 100 * c.toNat / top.toNat ∧ d.toNat ≤ 100 ∧
      exec (.decode top c) s = .next { s with rsp := some (responseWord { val := d }) }) ∧
    (top = 0 ∨ top.toNat < c.toNat →
      exec (.decode top c) s = .next { s with rsp := some (responseWord { err := .badOperand }) })

/-- R101: for every top from 100 up and every duty cycle, ENCODE and then DECODE of its answer gives the duty cycle or
one less. -/
def Obligations.DutyRoundTripIsWithinOne : Prop :=
  ∀ (top duty : Half) (s : State), 100 ≤ top.toNat → duty.toNat ≤ 100 →
    ∃ c d : Half,
      exec (.encode top duty) s = .next { s with rsp := some (responseWord { val := c }) } ∧
      exec (.decode top c) s = .next { s with rsp := some (responseWord { val := d }) } ∧
      (d.toNat = duty.toNat ∨ d.toNat + 1 = duty.toNat)

/-- R85: a calculator reads and writes no field of `S`: its response is the same in any two states of one
configuration, and nothing but the response port changes. -/
def Obligations.CalculatorsAreFunctionsOfTheCommand : Prop :=
  ∀ (i : Instr) (s u : State), isCalculator i = true → s.params = u.params →
    ∃ r, exec i s = .next { s with rsp := some r } ∧ exec i u = .next { u with rsp := some r }

/-- R53: a match or a service commutes with a calculator: the event can be taken after the calculator exactly when it
could be taken before it, the calculator can be run in either order, and both orders end in one state. -/
def Obligations.CalculatorsCommuteWithEvents : Prop :=
  ∀ (i : Instr) (e : Event) (s t : State), isCalculator i = true →
    ((∃ ch, e = .compareMatch ch) ∨ ∃ ch, e = .service ch) → exec i s = .next t →
      ((∃ u, takeMove e s = .next u) ↔ ∃ v, takeMove e t = .next v) ∧
      ∀ u, takeMove e s = .next u → ∃ v, takeMove e t = .next v ∧ exec i u = .next v

/-! ## The Waveform Mode Controller (41_waveform.md) -/

/-- R111, R114, R115 (D31): an accepted CONFIG installs the configuration in the shared timer, retimes a timer that
runs or is to run, and binds or unbinds its own channel; nothing else changes, the other channel's pin and compare
register among it. -/
def Obligations.ConfigInstallsAndBinds : Prop :=
  ∀ (ch : Ch) (m : Mode) (p : Policy) (psel : Sel) (top : Half) (run : Bool) (s : State),
    1 ≤ psel.toNat → psel.toNat ≤ s.params.prescalers.length → top ≠ 0 →
      exec (.config ch (modeCode m) (policyCode p) psel top run) s = .next
        { s with
          tmode := m
          icr := top
          cfg := { valid := true, psel := psel, top := top, mode := m }
          tclk := if run = true ∨ s.tclk ≠ 0 then psel else s.tclk
          pol := s.pol.put ch p
          pindir := if p = .disconnected then s.pindir else s.pindir.put ch true
          pinlvl :=
            if (p = .nonInverting ∨ p = .inverting) ∨ (p = .disconnected ∧ s.pol.get ch ≠ .disconnected) then
              s.pinlvl.put ch .X
            else s.pinlvl
          rsp := some (responseWord {}) }

/-- R74, R111: CONFIG refuses mode 3, policies 6 and 7, a selector outside the list and `top = 0`; nothing but the
response changes. -/
def Obligations.ConfigRefusesReservedValues : Prop :=
  ∀ (ch : Ch) (mode : BitVec 2) (pol : BitVec 3) (psel : Sel) (top : Half) (run : Bool) (s : State),
    (mode.toNat = 3 ∨ 5 < pol.toNat ∨ psel.toNat = 0 ∨ s.params.prescalers.length < psel.toNat ∨ top = 0) →
      exec (.config ch mode pol psel top run) s = .next
        { s with rsp := some (responseWord { err := .badOperand }) }

/-- R113: CONFIG binding a policy forces the pin's direction to output; with a toggle, clear or set policy the pin
keeps the level it had, `X` included. -/
def Obligations.BindingForcesOutputAndKeepsTheLevel : Prop :=
  ∀ (ch : Ch) (m : Mode) (p : Policy) (psel : Sel) (top : Half) (run : Bool) (s : State),
    1 ≤ psel.toNat → psel.toNat ≤ s.params.prescalers.length → top ≠ 0 → p ≠ .disconnected →
      ∃ t, exec (.config ch (modeCode m) (policyCode p) psel top run) s = .next t ∧ t.pindir.get ch = true ∧
        t.pol.get ch = p ∧
        (p = .toggle ∨ p = .clear ∨ p = .set → t.pinlvl = s.pinlvl)

/-- R116, R117 (D21): DISCONNECT unbinds a bound channel and leaves its level undefined; on an unbound one it does
nothing; direction, timer and configuration stay. -/
def Obligations.DisconnectLeavesTheLevelUndefined : Prop :=
  ∀ (ch : Ch) (s : State),
    exec (.disconnect ch) s = .next
      { s with
        pol := s.pol.put ch .disconnected
        pinlvl := if s.pol.get ch = .disconnected then s.pinlvl else s.pinlvl.put ch .X
        rsp := some (responseWord {}) }

/-- R119: PWM at duty 0 or 100 drives the pin as a static output and unbinds it, whatever the frequency, without a
write to the timer, to the compare register or to the configuration; a later PINSTAT (an operation and a layout the spec
decided itself, R127, D40) reads that level, output, disconnected; and the mode check still comes first. -/
def Obligations.BypassedPwmIsAStaticOutput : Prop :=
  ∀ (ch : Ch) (f : Word32) (level : Bool) (s : State),
    (∀ m, ∃ t,
      exec (.pwm ch (modeCode (timerMode m)) f (if level then 100 else 0)) s = .next t ∧
      t = { s with
            pol := s.pol.put ch .disconnected
            pindir := s.pindir.put ch true
            pinlvl := s.pinlvl.put ch (if level then .high else .low)
            rsp := some (responseWord {}) } ∧
      exec (.pinstat ch) t = .next { t with rsp := some (responseWord { val := if level then 3 else 2 }) }) ∧
    ∀ mode : BitVec 2, 2 ≤ mode.toNat →
      exec (.pwm ch mode f (if level then 100 else 0)) s = .next
        { s with rsp := some (responseWord { err := .badOperand }) }

/-- R118, R121 (policy and start of the timer D32): PWM at duty 1 to 99 with a frequency the solver answers programs
the timer, the channel's compare register and pin, starts the timer, and answers what it programmed; nothing else
changes. -/
def Obligations.PwmProgramsTheSignal : Prop :=
  ∀ (ch : Ch) (m : SignalMode) (f : Word32) (duty : Byte) (s : State) (k p top : Nat),
    1 ≤ duty.toNat → duty.toNat ≤ 99 → SolvesTo s.params m f.toNat k p top →
      ∃ c : Half, c.toNat = (duty.toNat * top + 50) / 100 ∧
        exec (.pwm ch (modeCode (timerMode m)) f duty) s = .next
          { s with
            tmode := timerMode m
            icr := BitVec.ofNat 16 top
            ocr := s.ocr.put ch c
            cfg := { valid := true, psel := BitVec.ofNat 3 k, top := BitVec.ofNat 16 top, mode := timerMode m }
            pol := s.pol.put ch .nonInverting
            pindir := s.pindir.put ch true
            pinlvl := s.pinlvl.put ch .X
            tclk := BitVec.ofNat 3 k
            rsp := some (responseWord
              { psel := BitVec.ofNat 3 k, presc := BitVec.ofNat 16 p, top := BitVec.ofNat 16 top, val := c }) }

/-- R118, R120, R169: PWM refuses ctc, mode 3 and a duty cycle above 100 before it looks at the frequency, and, when it
is not bypassed, a frequency with no answer; nothing but the response changes. -/
def Obligations.PwmRefusesInOrder : Prop :=
  ∀ (ch : Ch) (mode : BitVec 2) (f : Word32) (duty : Byte) (s : State),
    (2 ≤ mode.toNat ∨ 100 < duty.toNat →
      exec (.pwm ch mode f duty) s = .next { s with rsp := some (responseWord { err := .badOperand }) }) ∧
    (∀ m, mode = modeCode (timerMode m) → 1 ≤ duty.toNat → duty.toNat ≤ 99 → Unsolvable s.params m f.toNat →
      exec (.pwm ch mode f duty) s = .next { s with rsp := some (responseWord { err := .unsupportedFrequency }) })

/-- R122: a second PWM on the channel with the same mode and frequency changes only the compare register. -/
def Obligations.SecondPwmChangesOnlyTheDuty : Prop :=
  ∀ (ch : Ch) (m : SignalMode) (f : Word32) (duty duty' : Byte) (s : State) (k p top : Nat),
    1 ≤ duty.toNat → duty.toNat ≤ 99 → 1 ≤ duty'.toNat → duty'.toNat ≤ 99 → SolvesTo s.params m f.toNat k p top →
      ∃ (t : State) (c : Half) (r : Word), exec (.pwm ch (modeCode (timerMode m)) f duty) s = .next t ∧
        c.toNat = (duty'.toNat * top + 50) / 100 ∧
        exec (.pwm ch (modeCode (timerMode m)) f duty') t = .next { t with ocr := t.ocr.put ch c, rsp := some r }

/-- R124 (its errors D39): RDDUTY answers the top register and `(100 * OCR) div ICR`, and `ERR_BAD_STATE` where the
registers hold no duty cycle; nothing but the response changes. -/
def Obligations.RddutyDividesTheRegisters : Prop :=
  ∀ (ch : Ch) (s : State),
    (s.icr ≠ 0 → (s.ocr.get ch).toNat ≤ s.icr.toNat →
      ∃ d : Half, d.toNat = 100 * (s.ocr.get ch).toNat / s.icr.toNat ∧
        exec (.rdduty ch) s = .next { s with rsp := some (responseWord { top := s.icr, val := d }) }) ∧
    (s.icr = 0 ∨ s.icr.toNat < (s.ocr.get ch).toNat →
      exec (.rdduty ch) s = .next { s with rsp := some (responseWord { err := .badState }) })

/-- R125: after a PWM that was not bypassed and whose top is at least 100, RDDUTY answers the requested duty cycle or
one less. -/
def Obligations.RddutyAfterPwmIsWithinOne : Prop :=
  ∀ (ch : Ch) (m : SignalMode) (f : Word32) (duty : Byte) (s : State) (k p top : Nat),
    1 ≤ duty.toNat → duty.toNat ≤ 99 → SolvesTo s.params m f.toNat k p top → 100 ≤ top →
      ∃ (t : State) (d : Half), exec (.pwm ch (modeCode (timerMode m)) f duty) s = .next t ∧
        exec (.rdduty ch) t = .next { t with rsp := some (responseWord { top := BitVec.ofNat 16 top, val := d }) } ∧
        (d.toNat = duty.toNat ∨ d.toNat + 1 = duty.toNat)

/-- R39, R127 (layout D40): PINSTAT answers level, direction and policy. A level of 0 or 1 is answered as it is; for a
level `X` bit 0 is a free bit, one more draw is counted, and the statement holds for whichever bit comes (the draw and
its counter are the model's, log 6). Nothing else changes. -/
def Obligations.PinstatReportsThePin : Prop :=
  ∀ (ch : Ch) (s : State), ∃ (lvl : Bool) (v : Half),
    exec (.pinstat ch) s = .next
      { s with
        draws := if s.pinlvl.get ch = .X then s.draws + 1 else s.draws
        rsp := some (responseWord { val := v }) } ∧
    (s.pinlvl.get ch = .low → lvl = false) ∧ (s.pinlvl.get ch = .high → lvl = true) ∧
    v.toNat = (policyCode (s.pol.get ch)).toNat * 4 + (if s.pindir.get ch then 2 else 0) + (if lvl then 1 else 0)

/-! ## The Pulse-Train Sequencer (42_sequencer.md) -/

/-- R136 to R140 (D22 to D26): an accepted TRAIN replaces the whole train, programs `values[0]`, clears the channel's
pending flag, enables its interrupt and starts the timer; a train running on the other channel is first shut down.
Nothing else changes, `S.GIE` among it. -/
def Obligations.TrainArmsThePulseTrain : Prop :=
  ∀ (ch : Ch) (n : Half) (d1 d2 : Byte) (s : State),
    n ≠ 0 → 1 ≤ d1.toNat → d1.toNat ≤ 99 → 1 ≤ d2.toNat → d2.toNat ≤ 99 → 2 * n.toNat ≤ s.params.remMax →
    s.cfg.valid = true → s.pol.get ch ≠ .disconnected →
      ∃ v0 v1 r : Half, v0.toNat = (d1.toNat * s.cfg.top.toNat + 50) / 100 ∧
        v1.toNat = (d2.toNat * s.cfg.top.toNat + 50) / 100 ∧ r.toNat = 2 * n.toNat ∧
        exec (.train ch n d1 d2) s = .next
          { s with
            seq := { value0 := v0, value1 := v1, remaining := r, active := ch }
            ocr := s.ocr.put ch v0
            ocf := s.ocf.put ch false
            ocie :=
              (if s.seq.remaining ≠ 0 ∧ s.seq.active ≠ ch then s.ocie.put s.seq.active false else s.ocie).put ch true
            pol := if s.seq.remaining ≠ 0 ∧ s.seq.active ≠ ch then s.pol.put s.seq.active .disconnected else s.pol
            pinlvl :=
              if s.seq.remaining ≠ 0 ∧ s.seq.active ≠ ch then
                s.pinlvl.put s.seq.active (if s.params.idleLevel then .high else .low)
              else s.pinlvl
            tclk := s.cfg.psel
            rsp := some (responseWord { val := r }) }

/-- R136, R141 to R143, R169 (limits D23, needs D24): the checks of TRAIN in their order; a refused TRAIN leaves a
running train undisturbed: nothing but the response changes. -/
def Obligations.TrainRefusesInOrder : Prop :=
  ∀ (ch : Ch) (n : Half) (d1 d2 : Byte) (s : State),
    let badOperand := n = 0 ∨ d1.toNat = 0 ∨ 100 ≤ d1.toNat ∨ d2.toNat = 0 ∨ 100 ≤ d2.toNat
    let overflow := s.params.remMax < 2 * n.toNat
    let badState := s.cfg.valid = false ∨ s.pol.get ch = .disconnected
    (badOperand →
      exec (.train ch n d1 d2) s = .next { s with rsp := some (responseWord { err := .badOperand }) }) ∧
    (¬badOperand → overflow →
      exec (.train ch n d1 d2) s = .next { s with rsp := some (responseWord { err := .pulseCountOverflow }) }) ∧
    (¬badOperand → ¬overflow → badState →
      exec (.train ch n d1 d2) s = .next { s with rsp := some (responseWord { err := .badState }) })

/-- R144 to R146 (D27): STOP disables both interrupts, stops the timer and, if a train runs, ends it with its pin
unbound at `IDLE_LEVEL`; the pending flags, the configuration, the compare registers and `S.SEQ.values` stay. -/
def Obligations.StopCancelsTheTrain : Prop :=
  ∀ s : State,
    exec .stop s = .next
      { s with
        ocie := { a := false, b := false }
        tclk := 0
        seq := { s.seq with remaining := 0 }
        pol := if s.seq.remaining ≠ 0 then s.pol.put s.seq.active .disconnected else s.pol
        pinlvl :=
          if s.seq.remaining ≠ 0 then s.pinlvl.put s.seq.active (if s.params.idleLevel then .high else .low)
          else s.pinlvl
        rsp := some (responseWord {}) }

/-- R57, R148: POLL answers `S.SEQ.remaining` of the state it is taken in and changes no state. -/
def Obligations.PollAnswersTheCounter : Prop :=
  ∀ s : State, exec .poll s = .next { s with rsp := some (responseWord { val := s.seq.remaining }) }

/-- R150, R151 (D36): GIEON sets and GIEOFF clears the global interrupt enable, and each answers the old one; nothing
else changes. -/
def Obligations.GieCommandsAnswerTheOldEnable : Prop :=
  ∀ s : State,
    exec .gieon s = .next
      { s with gie := true, rsp := some (responseWord { val := if s.gie then 1 else 0 }) } ∧
    exec .gieoff s = .next
      { s with gie := false, rsp := some (responseWord { val := if s.gie then 1 else 0 }) }

/-- R152 (D29), R202: a match sets the channel's flag, whatever it was, and acts on its pin by the policy; toggling `X`
gives `X`; nothing else changes. -/
def Obligations.MatchSetsTheFlagAndActsOnThePin : Prop :=
  ∀ (ch : Ch) (s : State) (rest : List Event), s.schedule = .compareMatch ch :: rest → s.tclk ≠ 0 →
    ∃ l : Level,
      step s = .next
        { s with schedule := rest, ocf := s.ocf.put ch true, pinlvl := s.pinlvl.put ch l } ∧
      (s.pol.get ch = .disconnected → l = s.pinlvl.get ch) ∧
      (s.pol.get ch = .toggle →
        (s.pinlvl.get ch = .low → l = .high) ∧ (s.pinlvl.get ch = .high → l = .low) ∧
          (s.pinlvl.get ch = .X → l = .X)) ∧
      (s.pol.get ch = .clear → l = .low) ∧
      (s.pol.get ch = .set → l = .high) ∧
      (s.pol.get ch = .nonInverting → l = .X) ∧
      (s.pol.get ch = .inverting → l = .X)

/-- R153: the service step (as the next move of the model's schedule, log 1). Not enabled, it is no step. Enabled, it
acknowledges the flag, and, for the active channel of a running train, owes one service fewer: the last one disables the
interrupt, stops the timer and unbinds the pin at `IDLE_LEVEL` (D20) without programming a compare value (D22), any other
programs the value the new count's parity selects; with no train of the channel it acknowledges the flag alone (D28).
Nothing else changes: no response, and `S.GIE` is 1 before and after. -/
def Obligations.ServiceAlternatesAndEndsTheTrain : Prop :=
  ∀ (ch : Ch) (s : State) (rest : List Event), s.schedule = .service ch :: rest →
    let enabled := s.gie = true ∧ s.ocie.get ch = true ∧ s.ocf.get ch = true ∧
      (ch = .B → ¬(s.ocie.a = true ∧ s.ocf.a = true))
    (¬enabled → ¬∃ t, step s = .next t) ∧
    (enabled → s.seq.active = ch → s.seq.remaining.toNat = 1 →
      step s = .next
        { s with
          schedule := rest
          ocf := s.ocf.put ch false
          seq := { s.seq with remaining := 0 }
          ocie := s.ocie.put ch false
          tclk := 0
          pol := s.pol.put ch .disconnected
          pinlvl := s.pinlvl.put ch (if s.params.idleLevel then .high else .low) }) ∧
    (enabled → s.seq.active = ch → 2 ≤ s.seq.remaining.toNat →
      ∃ r : Half, r.toNat + 1 = s.seq.remaining.toNat ∧
        step s = .next
          { s with
            schedule := rest
            ocf := s.ocf.put ch false
            seq := { s.seq with remaining := r }
            ocr := s.ocr.put ch (if r.toNat % 2 = 1 then s.seq.value1 else s.seq.value0) }) ∧
    (enabled → s.seq.remaining = 0 ∨ s.seq.active ≠ ch →
      step s = .next { s with schedule := rest, ocf := s.ocf.put ch false })

/-- R135: the sequencer's transition table, over every step from a state that satisfies the invariants. -/
def Obligations.SequencerFollowsItsTransitionTable : Prop :=
  ∀ s t : State, Inv s → step s = .next t →
    (servesNext s = true →
      ∃ r, seqState s = .running r ∧ seqState t = if r = 1 then .idle else .running (r - 1)) ∧
    (∀ ch n d1 d2 r, issuedInstr s = some (.train ch n d1 d2) → t.rsp = some r →
      (rspErr r = 0 → seqState t = .running (2 * n.toNat)) ∧ (rspErr r ≠ 0 → seqState t = seqState s)) ∧
    (issuedInstr s = some .stop → seqState t = .idle) ∧
    (servesNext s = false → (issuedInstr s).all (fun i => !writesTrain i) = true → seqState t = seqState s)

/-- R56: no step leaves a mixed train. Every step leaves the whole train as it was, but a service, which owes one service
fewer, STOP, which owes none (both leave the compare values and the active channel), and an accepted TRAIN, which writes
all four fields from its own request. -/
def Obligations.TrainIsReplacedWholeOrNotAtAll : Prop :=
  ∀ s t : State, step s = .next t →
    t.seq = s.seq ∨
    (t.seq.value0 = s.seq.value0 ∧ t.seq.value1 = s.seq.value1 ∧ t.seq.active = s.seq.active ∧
      ((servesNext s = true ∧ t.seq.remaining.toNat + 1 = s.seq.remaining.toNat) ∨
        (issuedInstr s = some .stop ∧ t.seq.remaining = 0))) ∨
    ∃ ch n d1 d2 r, issuedInstr s = some (.train ch n d1 d2) ∧ t.rsp = some r ∧ rspErr r = errCode .ok ∧
      t.seq.active = ch ∧ t.seq.remaining.toNat = 2 * n.toNat ∧
      t.seq.value0.toNat = (d1.toNat * s.cfg.top.toNat + 50) / 100 ∧
      t.seq.value1.toNat = (d2.toNat * s.cfg.top.toNat + 50) / 100

/-- R155: after an accepted TRAIN of `N` pulses, in any run in which no further TRAIN or STOP is issued, the services
taken and those still owed are `2N`, so the train is over exactly when `2N` services have been taken. -/
def Obligations.TrainOfNPulsesTakes2NServices : Prop :=
  ∀ (s t u : State) (ch : Ch) (n : Half) (d1 d2 : Byte) (r : Word) (k c : Nat), Inv s →
    exec (.train ch n d1 d2) s = .next t → t.rsp = some r → rspErr r = 0 → undisturbedRun k t = some (u, c) →
      c + u.seq.remaining.toNat = 2 * n.toNat ∧ (seqState u = .idle ↔ c = 2 * n.toNat)

/-- R158 under its premises, R156: with the global interrupt enable set, a running train whose matches come and are
serviced one by one is over after as many services as were owed: `Idle`, timer stopped, interrupt disabled, pin unbound
at `IDLE_LEVEL`. -/
def Obligations.PromptlyServicedTrainEnds : Prop :=
  ∀ (s : State) (rest : List Event), Inv s → s.gie = true → s.seq.remaining ≠ 0 →
    s.schedule = promptSchedule s.seq.active s.seq.remaining.toNat ++ rest →
      ∃ t, runSteps (2 * s.seq.remaining.toNat) s = .next t ∧ t.schedule = rest ∧ seqState t = .idle ∧
        t.tclk = 0 ∧ t.ocie.get s.seq.active = false ∧ t.pol.get s.seq.active = .disconnected ∧
        t.pinlvl.get s.seq.active = (if s.params.idleLevel then .high else .low)

/-- R194: when a train ends its pin is unbound, so a further TRAIN on the channel with legal operands is
answered `ERR_BAD_STATE` and changes nothing. -/
def Obligations.FinishedTrainNeedsANewBinding : Prop :=
  ∀ (s t : State) (ch : Ch) (rest : List Event) (n : Half) (d1 d2 : Byte),
    s.schedule = .service ch :: rest → s.seq.active = ch → s.seq.remaining.toNat = 1 → step s = .next t →
    n ≠ 0 → 1 ≤ d1.toNat → d1.toNat ≤ 99 → 1 ≤ d2.toNat → d2.toNat ≤ 99 → 2 * n.toNat ≤ s.params.remMax →
      exec (.train ch n d1 d2) t = .next { t with rsp := some (responseWord { err := .badState }) }

/-- R203: two matches with no service between them leave the flag at 1 and, under a toggle policy, the pin where it
was. -/
def Obligations.TwoMatchesCollapseIntoOneFlag : Prop :=
  ∀ (s : State) (ch : Ch) (rest : List Event), s.schedule = .compareMatch ch :: .compareMatch ch :: rest →
    s.tclk ≠ 0 → s.pol.get ch = .toggle →
      runSteps 2 s = .next { s with schedule := rest, ocf := s.ocf.put ch true }

/-! ## Errors, reset and the whole machine (10_state.md, 60_exceptions.md, 70_reset_and_hazards.md) -/

/-- R166 (D18): a command answered with an error leaves every field of `S` as it was. -/
def Obligations.FailedCommandChangesNothing : Prop :=
  ∀ (s t : State) (w r : Word), hostCommand w s = .next t → t.rsp = some r → rspErr r ≠ 0 →
    t = { s with rsp := some r }

/-- R50: `S.CFG`, `S.TMODE`, `S.ICR`, `S.PINDIR` and `S.GIE` are written by the host only: a match or a service leaves
them. That it also leaves the response port is the model's choice (log 7). -/
def Obligations.EventsLeaveHostStateAlone : Prop :=
  ∀ (s t : State) (e : Event) (rest : List Event), s.schedule = e :: rest →
    ((∃ ch, e = .compareMatch ch) ∨ ∃ ch, e = .service ch) → step s = .next t →
      t.cfg = s.cfg ∧ t.tmode = s.tmode ∧ t.icr = s.icr ∧ t.pindir = s.pindir ∧ t.gie = s.gie ∧ t.rsp = s.rsp

/-- R37, R55 (D36): every step leaves the global interrupt enable as it was, but GIEON, which sets it, and GIEOFF,
which clears it: a critical section and a service restore it. -/
def Obligations.OnlyGieCommandsChangeTheEnable : Prop :=
  ∀ s t : State, step s = .next t → t.gie ≠ s.gie →
    (issuedInstr s = some .gieon ∧ t.gie = true) ∨ (issuedInstr s = some .gieoff ∧ t.gie = false)

/-- R35: a channel's compare-match interrupt enable is set only by a TRAIN on the channel, and cleared only by a TRAIN
on the other channel (preemption), by STOP and by the channel's service step. -/
def Obligations.InterruptEnableHasItsWriters : Prop :=
  ∀ (s t : State) (c : Ch), step s = .next t →
    (s.ocie.get c = false → t.ocie.get c = true → ∃ n d1 d2, issuedInstr s = some (.train c n d1 d2)) ∧
    (s.ocie.get c = true → t.ocie.get c = false →
      (∃ n d1 d2, issuedInstr s = some (.train c.other n d1 d2)) ∨ issuedInstr s = some .stop ∨
        ∃ rest, s.schedule = .service c :: rest)

/-- R36: a channel's pending flag is set only by a match of the channel, and cleared only by a TRAIN on the channel and
by the channel's service step. -/
def Obligations.PendingFlagHasItsWriters : Prop :=
  ∀ (s t : State) (c : Ch), step s = .next t →
    (s.ocf.get c = false → t.ocf.get c = true → ∃ rest, s.schedule = .compareMatch c :: rest) ∧
    (s.ocf.get c = true → t.ocf.get c = false →
      (∃ n d1 d2, issuedInstr s = some (.train c n d1 d2)) ∨ ∃ rest, s.schedule = .service c :: rest)

/-- R40: no step sets a pin's direction back to input, and no step removes an installed configuration (R23). -/
def Obligations.DirectionAndConfigurationStay : Prop :=
  ∀ (s t : State) (c : Ch), step s = .next t →
    (s.pindir.get c = true → t.pindir.get c = true) ∧ (s.cfg.valid = true → t.cfg.valid = true)

/-- R6, R46: no step changes the parameters (that State holds them is the model's choice, log 3). -/
def Obligations.ParametersNeverChange : Prop :=
  ∀ s t : State, step s = .next t → t.params = s.params

/-- R45, R191, R192 (D30): the reset state, for every admitted configuration and whatever the unspecified registers
hold: idle, unconfigured, timer stopped, interrupts off, pins disconnected inputs at `X`, and no match and no service
enabled; the unspecified selector and top within their legal values (R23). -/
def Obligations.ResetIsIdleAndDisconnected : Prop :=
  ∀ (c : Cfg) (u : ResetContents c) (ch : Ch),
    let s := State.resetOf c u
    seqState s = .idle ∧ s.cfg.valid = false ∧ s.tclk = 0 ∧ s.gie = false ∧ s.ocie.get ch = false ∧
      s.ocf.get ch = false ∧ s.pol.get ch = .disconnected ∧ s.pindir.get ch = false ∧ s.pinlvl.get ch = .X ∧
      moveEnabled (.compareMatch ch) s = false ∧ moveEnabled (.service ch) s = false ∧
      1 ≤ s.cfg.psel.toNat ∧ s.cfg.psel.toNat ≤ c.prescalers.length ∧
      1 ≤ s.cfg.top.toNat ∧ s.cfg.top.toNat ≤ counterMax

/-- R29, R191: the reset state satisfies the invariants, for every admitted configuration and whatever the unspecified
registers hold. -/
def Obligations.InvariantsHoldAtReset : Prop :=
  ∀ (c : Cfg) (u : ResetContents c), Inv (State.resetOf c u)

/-- R29: every step from a state that satisfies the invariants leads to one that does: INV1 to INV5, the counter within
`REM_BITS` bits (R26), the timer's registers holding the active configuration and its prescaler (R25, R114), level `X`
under a PWM policy (R121), a bound pin an output (R113), and a word on its way over a narrower bus incomplete and not
torn (R54; the bus's fields are the model's, log 10). -/
def Obligations.StepKeepsTheInvariants : Prop :=
  ∀ s t : State, Inv s → step s = .next t → Inv t

/-- R60 (c), R148: a POLL that answers 0 means the sequencer is idle and no compare-match interrupt is enabled. -/
def Obligations.PollZeroMeansIdle : Prop :=
  ∀ (s t : State) (r : Word), Inv s → exec .poll s = .next t → t.rsp = some r → rspVal r = 0 →
    seqState t = .idle ∧ t.ocie.a = false ∧ t.ocie.b = false

/-- R74, R169: an operation that carries a reserved operand value is answered `ERR_BAD_OPERAND` and changes no state. -/
def Obligations.ReservedOperandIsRefused : Prop :=
  ∀ (i : Instr) (s : State), i.wellFormed s.params = false →
    exec i s = .next { s with rsp := some (responseWord { err := .badOperand }) }

/-- R76 (D38): the host-side `CRITICAL { ops }` restores the enable. GIEOFF completes with the enable 0; operations
without a GIEON complete and leave it 0; the closing GIEON is issued exactly when the enable was 1 before, and after the
section the enable is what it was before it. -/
def Obligations.HostCriticalRestoresTheEnable : Prop :=
  ∀ (s : State) (ops : List Instr), .gieon ∉ ops →
    ∃ (t u v : State) (r : Word), exec criticalOpen s = .next t ∧ t.gie = false ∧ t.rsp = some r ∧
      (s.gie = true → criticalClose r = [.gieon]) ∧ (s.gie = false → criticalClose r = []) ∧
      issueAll ops t = .next u ∧ u.gie = false ∧
      issueAll (criticalClose r) u = .next v ∧ v.gie = s.gie
end

