-- ==== Sys2Proof/Laws/Arith.lean ====
section
/-! SUPPORT. The arithmetic of the calculators: what `rnd` is, when one prescaler's candidate is in range, what the
search answers, what R6 says of an admitted list of prescalers. -/

namespace Sys2Proof.Machine

/-- `rnd` is the nearest integer, a tie up (00_scope.md R8). -/
theorem rnd_spec {a b : Nat} (hb : 0 < b) : 2 * b * rnd a b ≤ 2 * a + b ∧ 2 * a + b < 2 * b * (rnd a b + 1) := by
  unfold rnd
  exact ⟨Nat.mul_div_le _ _, Nat.lt_mul_div_succ _ (by omega)⟩

theorem rnd_lt_iff {a b q : Nat} (hb : 0 < b) : rnd a b < q ↔ 2 * a + b < 2 * b * q := by
  unfold rnd
  rw [Nat.div_lt_iff_lt_mul (by omega), Nat.mul_comm q]

theorem le_rnd_iff {a b q : Nat} (hb : 0 < b) : q ≤ rnd a b ↔ 2 * b * q ≤ 2 * a + b := by
  rw [← Nat.not_lt, rnd_lt_iff hb, Nat.not_lt]

theorem rnd_anti {a b c : Nat} (hb : 0 < b) (h : b ≤ c) : rnd a c ≤ rnd a b := by
  have h1 := (rnd_spec (a := a) (b := c) (by omega)).1
  rw [le_rnd_iff hb]
  by_cases h0 : rnd a c = 0
  · rw [h0]; omega
  · have h2 : 1 ≤ rnd a c := by omega
    have h3 : 2 * b * rnd a c + (c - b) ≤ 2 * c * rnd a c := by
      obtain ⟨d, rfl⟩ := Nat.exists_eq_add_of_le h
      have : d * 1 ≤ d * (2 * rnd a (b + d)) := Nat.mul_le_mul_left d (by omega)
      have e : 2 * (b + d) * rnd a (b + d) = 2 * b * rnd a (b + d) + d * (2 * rnd a (b + d)) := by ring
      omega
    omega

/-- `encode` as R97 writes it: `(duty * top + 50) div 100`. -/
theorem encodeDuty_eq (top duty : Nat) : encodeDuty top duty = (duty * top + 50) / 100 := by
  unfold encodeDuty rnd
  omega

/-! ## Candidates and the search -/

/-- The divisor of R90 or R91: `p * f` in fast mode, `2 * p * f` in phase-correct mode. -/
def solveDivisor : SignalMode → Nat → Nat → Nat
  | .fast, f, p => p * f
  | .phaseCorrect, f, p => 2 * p * f

/-- What `rnd` gives for a top: one more in fast mode (R90), the top itself in phase-correct mode (R91). -/
def countOfTop : SignalMode → Nat → Nat
  | .fast, top => top + 1
  | .phaseCorrect, top => top

theorem solveCandidate_some_iff (clk : Nat) (m : SignalMode) (f p top : Nat) :
    solveCandidate clk m f p = some top ↔
      rnd clk (solveDivisor m f p) = countOfTop m top ∧ 1 ≤ countOfTop m top ∧ top ≤ counterMax := by
  cases m with
  | fast =>
    simp only [solveCandidate, solveDivisor, countOfTop]
    constructor
    · intro h
      split at h
      · cases h; omega
      · cases h
    · rintro ⟨h1, -, h3⟩
      rw [h1]
      simp [h3]
  | phaseCorrect =>
    simp only [solveCandidate, solveDivisor, countOfTop]
    constructor
    · intro h
      split at h
      · cases h; omega
      · cases h
    · rintro ⟨h1, h2, h3⟩
      rw [h1]
      simp [h2, h3]

theorem solveCandidate_none_iff (clk : Nat) (m : SignalMode) (f p : Nat) :
    solveCandidate clk m f p = none ↔
      rnd clk (solveDivisor m f p) = 0 ∨ countOfTop m counterMax < rnd clk (solveDivisor m f p) := by
  cases m <;> simp only [solveCandidate, solveDivisor, countOfTop] <;> split <;> simp <;> omega

/-- What the search answers: the first prescaler, from selector `k` on, whose candidate is in range. -/
theorem solveSearch_some_iff (clk : Nat) (m : SignalMode) (f : Nat) (l : List Nat) (k j top : Nat) :
    solveSearch clk m f k l = some (j, top) ↔
      ∃ n p, j = k + n ∧ l[n]? = some p ∧ solveCandidate clk m f p = some top ∧
        ∀ i q, i < n → l[i]? = some q → solveCandidate clk m f q = none := by
  induction l generalizing k with
  | nil => simp [solveSearch]
  | cons p rest ih =>
    simp only [solveSearch]
    cases h : solveCandidate clk m f p with
    | some t =>
      constructor
      · intro e
        cases e
        exact ⟨0, p, rfl, rfl, h, by omega⟩
      · rintro ⟨n, q, rfl, h1, h2, h3⟩
        cases n with
        | zero =>
          simp only [List.getElem?_cons_zero, Option.some.injEq] at h1
          subst h1
          rw [h] at h2
          cases h2
          rfl
        | succ n =>
          have := h3 0 p (by omega) rfl
          rw [h] at this
          cases this
    | none =>
      dsimp only
      rw [ih]
      constructor
      · rintro ⟨n, q, rfl, h1, h2, h3⟩
        refine ⟨n + 1, q, by omega, by simpa using h1, h2, ?_⟩
        intro i r hi hr
        cases i with
        | zero =>
          simp only [List.getElem?_cons_zero, Option.some.injEq] at hr
          subst hr
          exact h
        | succ i => exact h3 i r (by omega) (by simpa using hr)
      · rintro ⟨n, q, rfl, h1, h2, h3⟩
        cases n with
        | zero =>
          simp only [List.getElem?_cons_zero, Option.some.injEq] at h1
          subst h1
          rw [h] at h2
          cases h2
        | succ n =>
          refine ⟨n, q, by omega, by simpa using h1, h2, ?_⟩
          intro i r hi hr
          exact h3 (i + 1) r (by omega) (by simpa using hr)

theorem solveSearch_none_iff (clk : Nat) (m : SignalMode) (f : Nat) (l : List Nat) (k : Nat) :
    solveSearch clk m f k l = none ↔ ∀ p, p ∈ l → solveCandidate clk m f p = none := by
  induction l generalizing k with
  | nil => simp [solveSearch]
  | cons p rest ih =>
    simp only [solveSearch]
    cases h : solveCandidate clk m f p with
    | some t => simp [h]
    | none => simp [ih, h]

/-! ## Admitted prescalers (R6) -/

theorem prescalersFrom_cons {p q : Nat} {rest : List Nat} :
    prescalersFrom p (q :: rest) = true ↔ p < q ∧ q ≤ 32768 * p ∧ q ≤ 65535 ∧ prescalersFrom q rest = true := by
  simp [prescalersFrom, and_assoc]

/-- Every element of an admitted tail is above its head and at most 65535. -/
theorem prescalersFrom_mem {p : Nat} {l : List Nat} (h : prescalersFrom p l = true) :
    ∀ q, q ∈ l → p < q ∧ q ≤ 65535 := by
  induction l generalizing p with
  | nil => simp
  | cons a rest ih =>
    obtain ⟨h1, -, h3, h4⟩ := prescalersFrom_cons.1 h
    intro q hq
    cases List.mem_cons.1 hq with
    | inl e => subst e; exact ⟨h1, h3⟩
    | inr e =>
      have := ih h4 q e
      omega

theorem admitted_prescalers_ok (c : Cfg) : prescalersOk c.prescalers = true := by
  have h := c.admitted
  simp only [RawCfg.ok, Bool.and_eq_true] at h
  exact h.1.1.1.2

theorem admitted_divisors_ok (c : Cfg) : divisorsFrom 0 c.divisors = true := by
  have h := c.admitted
  simp only [RawCfg.ok, Bool.and_eq_true] at h
  exact h.1.1.2

theorem admitted_clock_ok (c : Cfg) : c.clkHz = 1000000 ∨ c.clkHz = 8000000 := by
  have h := c.admitted
  simp only [RawCfg.ok, Bool.and_eq_true, clockOk, Bool.or_eq_true, decide_eq_true_eq] at h
  exact h.1.1.1.1

theorem admitted_remBits_ok (c : Cfg) : 2 ≤ c.remBits ∧ c.remBits ≤ 16 := by
  have h := c.admitted
  simp only [RawCfg.ok, Bool.and_eq_true, decide_eq_true_eq] at h
  exact ⟨h.1.2, h.2⟩

/-- An admitted list begins with 1, and its tail is admitted from there. -/
theorem admitted_prescalers_cons (c : Cfg) :
    ∃ rest, c.prescalers = 1 :: rest ∧ rest.length ≤ 6 ∧ prescalersFrom 1 rest = true := by
  have h := admitted_prescalers_ok c
  cases e : c.prescalers with
  | nil => rw [e] at h; cases h
  | cons p rest =>
    rw [e] at h
    simp only [prescalersOk, Bool.and_eq_true, decide_eq_true_eq] at h
    obtain ⟨⟨rfl, h2⟩, h3⟩ := h
    exact ⟨rest, rfl, h2, h3⟩

theorem admitted_prescalers_length (c : Cfg) : 1 ≤ c.prescalers.length ∧ c.prescalers.length ≤ 7 := by
  obtain ⟨rest, e, h, -⟩ := admitted_prescalers_cons c
  rw [e, List.length_cons]
  omega

theorem admitted_prescaler_range (c : Cfg) : ∀ p, p ∈ c.prescalers → 1 ≤ p ∧ p ≤ 65535 := by
  obtain ⟨rest, e, -, h⟩ := admitted_prescalers_cons c
  intro p hp
  rw [e] at hp
  cases List.mem_cons.1 hp with
  | inl q => subst q; omega
  | inr q =>
    have := prescalersFrom_mem h p q
    omega

theorem admitted_remMax_range (c : Cfg) : 3 ≤ c.remMax ∧ c.remMax ≤ 65535 := by
  obtain ⟨h1, h2⟩ := admitted_remBits_ok c
  have h3 : 2 ^ 2 ≤ 2 ^ c.remBits := Nat.pow_le_pow_right (by omega) h1
  have h4 : 2 ^ c.remBits ≤ 2 ^ 16 := Nat.pow_le_pow_right (by omega) h2
  unfold Cfg.remMax
  omega

theorem divisorsFrom_mem {p : Nat} {l : List Nat} (h : divisorsFrom p l = true) :
    ∀ d, d ∈ l → p < d ∧ d ≤ 65535 := by
  induction l generalizing p with
  | nil => simp
  | cons a rest ih =>
    simp only [divisorsFrom, Bool.and_eq_true, decide_eq_true_eq] at h
    intro d hd
    cases List.mem_cons.1 hd with
    | inl e => subst e; exact h.1
    | inr e =>
      have := ih h.2 d e
      omega

end Sys2Proof.Machine
end

