-- ==== Sys2Proof/Laws/Encoding.lean ====
section
/-! SUPPORT. The command word's fields: packing and reading them are inverse, two words agree when their ten fields
do, and a row's `match` and `mask` say exactly that `op` is the row's and every unused field is zero. -/

namespace Sys2Proof

/-! ## Bits of placed fields -/

theorem placed_at {n : Nat} (x : BitVec n) (k j : Nat) (hj : j < 64) (hk : k ≤ j) :
    (x.setWidth 64 <<< k).getLsbD j = x.getLsbD (j - k) := by
  have h1 : ¬ j < k := by omega
  simp [hj, h1]

theorem placed_above {n : Nat} (x : BitVec n) (k j : Nat) (h : k + n ≤ j) :
    (x.setWidth 64 <<< k).getLsbD j = false := by
  have h1 : x.getLsbD (j - k) = false := BitVec.getLsbD_of_ge _ _ (by omega)
  simp [h1]

theorem placed_below {n : Nat} (x : BitVec n) (k j : Nat) (h : j < k) :
    (x.setWidth 64 <<< k).getLsbD j = false := by
  simp [h]

theorem placed_low {n : Nat} (x : BitVec n) (j : Nat) (hj : j < 64) :
    (x.setWidth 64).getLsbD j = x.getLsbD j := by
  simp [hj]

theorem bit_above {n i : Nat} (x : BitVec n) (h : n ≤ i) : x.getLsbD i = false := BitVec.getLsbD_of_ge _ _ h

theorem extract_bit {n k i : Nat} (w : Word) (h : i < n) : (w.extractLsb' k n)[i] = w.getLsbD (k + i) := by
  simp

theorem packFields_bit (f : Fields) (j : Nat) (hj : j < 64) :
    (packFields f).getLsbD j =
      (if j < 16 then f.lo.getLsbD j
       else if j < 32 then f.hi.getLsbD (j - 16)
       else if j < 40 then f.aux.getLsbD (j - 32)
       else if j < 46 then f.rsv.getLsbD (j - 40)
       else if j < 47 then f.run.getLsbD (j - 46)
       else if j < 50 then f.psel.getLsbD (j - 47)
       else if j < 53 then f.pol.getLsbD (j - 50)
       else if j < 55 then f.mode.getLsbD (j - 53)
       else if j < 56 then f.ch.getLsbD (j - 55)
       else f.op.getLsbD (j - 56)) := by
  simp only [packFields, BitVec.getLsbD_or]
  split_ifs <;>
    simp (disch := omega) only [placed_at, placed_below, placed_low, bit_above, Bool.or_false, Bool.false_or]

/-! ## Reading a packed field -/

@[simp] theorem fieldOp_pack (f : Fields) : fieldOp (packFields f) = f.op := by
  ext i hi
  rw [fieldOp, extract_bit _ hi, packFields_bit _ _ (by omega)]
  simp (disch := omega) only [if_neg, Nat.add_sub_cancel_left]
  exact BitVec.getLsbD_eq_getElem hi

@[simp] theorem fieldCh_pack (f : Fields) : fieldCh (packFields f) = f.ch := by
  ext i hi
  rw [fieldCh, extract_bit _ hi, packFields_bit _ _ (by omega)]
  simp (disch := omega) only [if_neg, if_pos, Nat.add_sub_cancel_left]
  exact BitVec.getLsbD_eq_getElem hi

@[simp] theorem fieldMode_pack (f : Fields) : fieldMode (packFields f) = f.mode := by
  ext i hi
  rw [fieldMode, extract_bit _ hi, packFields_bit _ _ (by omega)]
  simp (disch := omega) only [if_neg, if_pos, Nat.add_sub_cancel_left]
  exact BitVec.getLsbD_eq_getElem hi

@[simp] theorem fieldPol_pack (f : Fields) : fieldPol (packFields f) = f.pol := by
  ext i hi
  rw [fieldPol, extract_bit _ hi, packFields_bit _ _ (by omega)]
  simp (disch := omega) only [if_neg, if_pos, Nat.add_sub_cancel_left]
  exact BitVec.getLsbD_eq_getElem hi

@[simp] theorem fieldPsel_pack (f : Fields) : fieldPsel (packFields f) = f.psel := by
  ext i hi
  rw [fieldPsel, extract_bit _ hi, packFields_bit _ _ (by omega)]
  simp (disch := omega) only [if_neg, if_pos, Nat.add_sub_cancel_left]
  exact BitVec.getLsbD_eq_getElem hi

@[simp] theorem fieldRun_pack (f : Fields) : fieldRun (packFields f) = f.run := by
  ext i hi
  rw [fieldRun, extract_bit _ hi, packFields_bit _ _ (by omega)]
  simp (disch := omega) only [if_neg, if_pos, Nat.add_sub_cancel_left]
  exact BitVec.getLsbD_eq_getElem hi

@[simp] theorem fieldRsv_pack (f : Fields) : fieldRsv (packFields f) = f.rsv := by
  ext i hi
  rw [fieldRsv, extract_bit _ hi, packFields_bit _ _ (by omega)]
  simp (disch := omega) only [if_neg, if_pos, Nat.add_sub_cancel_left]
  exact BitVec.getLsbD_eq_getElem hi

@[simp] theorem fieldAux_pack (f : Fields) : fieldAux (packFields f) = f.aux := by
  ext i hi
  rw [fieldAux, extract_bit _ hi, packFields_bit _ _ (by omega)]
  simp (disch := omega) only [if_neg, if_pos, Nat.add_sub_cancel_left]
  exact BitVec.getLsbD_eq_getElem hi

@[simp] theorem fieldHi_pack (f : Fields) : fieldHi (packFields f) = f.hi := by
  ext i hi
  rw [fieldHi, extract_bit _ hi, packFields_bit _ _ (by omega)]
  simp (disch := omega) only [if_neg, if_pos, Nat.add_sub_cancel_left]
  exact BitVec.getLsbD_eq_getElem hi

@[simp] theorem fieldLo_pack (f : Fields) : fieldLo (packFields f) = f.lo := by
  ext i hi
  rw [fieldLo, extract_bit _ hi, packFields_bit _ _ (by omega)]
  simp (disch := omega) only [if_pos, Nat.zero_add]
  exact BitVec.getLsbD_eq_getElem hi

/-! ## Two words with the same fields -/

theorem extract_agree {a b : Word} {k n : Nat} (h : a.extractLsb' k n = b.extractLsb' k n) (i : Nat)
    (h1 : k ≤ i) (h2 : i < k + n) : a.getLsbD i = b.getLsbD i := by
  have h3 := congrArg (fun x => x.getLsbD (i - k)) h
  simpa [show i - k < n by omega, show k + (i - k) = i by omega] using h3

theorem word_ext {a b : Word} (h1 : fieldOp a = fieldOp b) (h2 : fieldCh a = fieldCh b)
    (h3 : fieldMode a = fieldMode b) (h4 : fieldPol a = fieldPol b) (h5 : fieldPsel a = fieldPsel b)
    (h6 : fieldRun a = fieldRun b) (h7 : fieldRsv a = fieldRsv b) (h8 : fieldAux a = fieldAux b)
    (h9 : fieldHi a = fieldHi b) (h10 : fieldLo a = fieldLo b) : a = b := by
  refine BitVec.eq_of_getLsbD_eq fun i hi => ?_
  by_cases c1 : i < 16
  · exact extract_agree h10 i (by omega) (by omega)
  by_cases c2 : i < 32
  · exact extract_agree h9 i (by omega) (by omega)
  by_cases c3 : i < 40
  · exact extract_agree h8 i (by omega) (by omega)
  by_cases c4 : i < 46
  · exact extract_agree h7 i (by omega) (by omega)
  by_cases c5 : i < 47
  · exact extract_agree h6 i (by omega) (by omega)
  by_cases c6 : i < 50
  · exact extract_agree h5 i (by omega) (by omega)
  by_cases c7 : i < 53
  · exact extract_agree h4 i (by omega) (by omega)
  by_cases c8 : i < 55
  · exact extract_agree h3 i (by omega) (by omega)
  by_cases c9 : i < 56
  · exact extract_agree h2 i (by omega) (by omega)
  exact extract_agree h1 i (by omega) (by omega)

/-- The ten fields of a word. -/
def fieldsOfWord (w : Word) : Fields :=
  { op := fieldOp w, ch := fieldCh w, mode := fieldMode w, pol := fieldPol w, psel := fieldPsel w, run := fieldRun w,
    rsv := fieldRsv w, aux := fieldAux w, hi := fieldHi w, lo := fieldLo w }

@[simp] theorem pack_fieldsOfWord (w : Word) : packFields (fieldsOfWord w) = w := by
  apply word_ext <;> simp [fieldsOfWord]

@[simp] theorem fieldsOfWord_pack (f : Fields) : fieldsOfWord (packFields f) = f := by
  simp [fieldsOfWord]

theorem packFields_injective {f g : Fields} (h : packFields f = packFields g) : f = g := by
  simpa using congrArg fieldsOfWord h

/-! ## Rows -/

/-- `field AND field`, for the ten fields. -/
def andFields (f g : Fields) : Fields :=
  { op := f.op &&& g.op, ch := f.ch &&& g.ch, mode := f.mode &&& g.mode, pol := f.pol &&& g.pol,
    psel := f.psel &&& g.psel, run := f.run &&& g.run, rsv := f.rsv &&& g.rsv, aux := f.aux &&& g.aux,
    hi := f.hi &&& g.hi, lo := f.lo &&& g.lo }

theorem pack_and (f g : Fields) : packFields f &&& packFields g = packFields (andFields f g) := by
  refine BitVec.eq_of_getLsbD_eq fun i hi => ?_
  rw [BitVec.getLsbD_and, packFields_bit _ _ hi, packFields_bit _ _ hi, packFields_bit _ _ hi]
  split_ifs <;> simp [andFields]

/-- All ones, in the fields a format does not use. -/
def maskFields (fm : Format) : Fields :=
  { op := BitVec.allOnes 8, ch := if fm.ch then 0 else BitVec.allOnes 1, mode := if fm.mode then 0 else BitVec.allOnes 2,
    pol := if fm.pol then 0 else BitVec.allOnes 3, psel := if fm.psel then 0 else BitVec.allOnes 3,
    run := if fm.run then 0 else BitVec.allOnes 1, rsv := BitVec.allOnes 6,
    aux := if fm.aux then 0 else BitVec.allOnes 8, hi := if fm.hi then 0 else BitVec.allOnes 16,
    lo := if fm.lo then 0 else BitVec.allOnes 16 }

theorem opcodeMask_eq (o : Opcode) : opcodeMask o = packFields (maskFields (opcodeFormat o)) := by
  cases o <;> decide

theorem opcodeMatch_eq (o : Opcode) : opcodeMatch o = packFields { op := opcodeCode o } := by
  cases o <;> decide

theorem ite_allOnes_and {n : Nat} (c : Bool) (x : BitVec n) :
    (x &&& (if c then 0 else BitVec.allOnes n) = 0) ↔ (c = false → x = 0) := by
  cases c <;> simp

/-- A row's `match` and `mask` decide exactly: `op` is the row's, `rsv` and every unused field are zero. -/
theorem rowMatch_iff (w : Word) (o : Opcode) :
    (w &&& opcodeMask o = opcodeMatch o) ↔ (fieldOp w = opcodeCode o ∧ unusedZero (opcodeFormat o) w) := by
  constructor
  · intro h
    rw [← pack_fieldsOfWord w, opcodeMask_eq, opcodeMatch_eq, pack_and] at h
    have h := packFields_injective h
    simp only [andFields, maskFields, fieldsOfWord, Fields.mk.injEq, BitVec.and_allOnes, ite_allOnes_and] at h
    obtain ⟨h1, h2, h3, h4, h5, h6, h7, h8, h9, h10⟩ := h
    exact ⟨h1, h7, h2, h3, h4, h5, h6, h8, h9, h10⟩
  · rintro ⟨h1, h7, h2, h3, h4, h5, h6, h8, h9, h10⟩
    rw [← pack_fieldsOfWord w, opcodeMask_eq, opcodeMatch_eq, pack_and]
    simp only [andFields, maskFields, fieldsOfWord, BitVec.and_allOnes]
    congr 1
    simp only [Fields.mk.injEq, ite_allOnes_and]
    exact ⟨h1, h2, h3, h4, h5, h6, h7, h8, h9, h10⟩

@[simp] theorem opcodeOf_code (o : Opcode) : opcodeOf (opcodeCode o) = some o := by
  cases o <;> decide

theorem code_of_opcodeOf {b : Byte} {o : Opcode} (h : opcodeOf b = some o) : opcodeCode o = b := by
  simpa using List.find?_some h

/-! ## Operands -/

@[simp] theorem chOfBit_bitOfCh (c : Ch) : chOfBit (bitOfCh c) = c := by
  cases c <;> decide

@[simp] theorem bitOfCh_chOfBit (b : BitVec 1) : bitOfCh (chOfBit b) = b := by
  revert b; decide

theorem ofBool_beq_one (v : Bool) : (BitVec.ofBool v == 1#1) = v := by
  cases v <;> decide

theorem ofBool_of_beq_one (b : BitVec 1) : BitVec.ofBool (b == 1#1) = b := by
  revert b; decide

@[simp] theorem joinHalves_split (v : Word32) : joinHalves (upperHalf v) (lowerHalf v) = v := by
  refine BitVec.eq_of_getLsbD_eq fun i hi => ?_
  by_cases h : i < 16
  · simp [joinHalves, upperHalf, lowerHalf, h, hi]
  · have h1 : i - 16 < 16 := by omega
    have h3 : 16 + (i - 16) = i := by omega
    simp [joinHalves, upperHalf, lowerHalf, h, hi, h1, h3]

@[simp] theorem upperHalf_join (hi lo : Half) : upperHalf (joinHalves hi lo) = hi := by
  refine BitVec.eq_of_getLsbD_eq fun i h => ?_
  have h1 : 16 + i < 32 := by omega
  simp [joinHalves, upperHalf, h, h1]

@[simp] theorem lowerHalf_join (hi lo : Half) : lowerHalf (joinHalves hi lo) = lo := by
  refine BitVec.eq_of_getLsbD_eq fun i h => ?_
  have h3 : i < 32 := by omega
  simp [joinHalves, lowerHalf, h, h3]

@[simp] theorem joinBytes_split (v : Half) : joinBytes (upperByte v) (lowerByte v) = v := by
  refine BitVec.eq_of_getLsbD_eq fun i hi => ?_
  by_cases h : i < 8
  · simp [joinBytes, upperByte, lowerByte, h, hi]
  · have h1 : i - 8 < 8 := by omega
    have h3 : 8 + (i - 8) = i := by omega
    simp [joinBytes, upperByte, lowerByte, h, hi, h1, h3]

@[simp] theorem upperByte_join (hi lo : Byte) : upperByte (joinBytes hi lo) = hi := by
  refine BitVec.eq_of_getLsbD_eq fun i h => ?_
  have h1 : 8 + i < 16 := by omega
  simp [joinBytes, upperByte, h, h1]

@[simp] theorem lowerByte_join (hi lo : Byte) : lowerByte (joinBytes hi lo) = lo := by
  refine BitVec.eq_of_getLsbD_eq fun i h => ?_
  have h3 : i < 16 := by omega
  simp [joinBytes, lowerByte, h, h3]

/-- The word of an operation has its own row's `op`. -/
theorem fieldOp_encode (i : Instr) : fieldOp (encode i) = opcodeCode (opcodeOfInstr i) := by
  cases i <;> simp [encode, fieldsOfInstr, opcodeOfInstr]

/-- The word of an operation has zeros where its format uses no field. -/
theorem unusedZero_encode (i : Instr) : unusedZero (opcodeFormat (opcodeOfInstr i)) (encode i) := by
  cases i <;> simp [encode, fieldsOfInstr, opcodeOfInstr, opcodeFormat, unusedZero]

/-- Reading the operands of an operation's word gives the operation. -/
theorem buildInstr_encode (i : Instr) : buildInstr (opcodeOfInstr i) (encode i) = i := by
  cases i <;> simp [encode, fieldsOfInstr, opcodeOfInstr, buildInstr, fieldW32, ofBool_beq_one]

/-- An operation read from a word belongs to the row it was read for. -/
@[simp] theorem opcodeOfInstr_build (o : Opcode) (w : Word) : opcodeOfInstr (buildInstr o w) = o := by
  cases o <;> rfl

/-- When a word decodes: its row is in the map and its unused fields are zero; the operation is the row's reading. -/
theorem decode_ok_iff (w : Word) (i : Instr) :
    decode w = .ok i ↔
      ∃ o, fieldOp w = opcodeCode o ∧ unusedZero (opcodeFormat o) w ∧ i = buildInstr o w := by
  unfold decode
  constructor
  · intro h
    split at h
    · cases h
    · rename_i o ho
      split at h
      · rename_i hm
        cases h
        exact ⟨o, (code_of_opcodeOf ho).symm, ((rowMatch_iff w o).1 hm).2, rfl⟩
      · split at h <;> cases h
  · rintro ⟨o, h1, h2, rfl⟩
    have hm := (rowMatch_iff w o).2 ⟨h1, h2⟩
    simp [h1, hm]

/-! ## The bytes of a word (20_memory.md R54) -/

theorem wordOfBytes_bit (b : Byte) (l : List Byte) (i : Nat) (h : i < 64) :
    (wordOfBytes (b :: l)).getLsbD i = if i < 8 then b.getLsbD i else (wordOfBytes l).getLsbD (i - 8) := by
  rw [wordOfBytes, BitVec.getLsbD_or, placed_low _ _ h, BitVec.getLsbD_shiftLeft]
  split
  · simp [*]
  · simp [*, bit_above b (show 8 ≤ i by omega)]

/-- A word carried byte by byte is the word. -/
theorem wordOfBytes_bytesOfWord (w : Word) : wordOfBytes (bytesOfWord w) = w := by
  refine BitVec.eq_of_getLsbD_eq fun i hi => ?_
  simp only [bytesOfWord]
  iterate 8
    rw [wordOfBytes_bit _ _ _ (by omega)]
    split
    · rw [BitVec.getLsbD_extractLsb', decide_eq_true ‹_›, Bool.true_and]
      congr 1
      omega
  omega

end Sys2Proof
end

