-- ==== Sys2Proof/Laws/State.lean ====
section
/-! SUPPORT. The small lemmas of State: the per-channel fields, and one lemma for each field of each named update, so
that no proof unfolds a record update. -/

namespace Sys2Proof.Machine

@[simp] theorem get_put_same {α : Type} (p : PerCh α) (ch : Ch) (v : α) : (p.put ch v).get ch = v := by
  cases ch <;> rfl

theorem get_put {α : Type} (p : PerCh α) (ch c : Ch) (v : α) :
    (p.put ch v).get c = if c = ch then v else p.get c := by
  cases ch <;> cases c <;> rfl

@[simp] theorem get_put_other {α : Type} (p : PerCh α) {ch c : Ch} (v : α) (h : c ≠ ch) :
    (p.put ch v).get c = p.get c := by
  simp [get_put, h]

@[simp] theorem put_put {α : Type} (p : PerCh α) (ch : Ch) (v w : α) : (p.put ch v).put ch w = p.put ch w := by
  cases ch <;> rfl

theorem put_get {α : Type} (p : PerCh α) (ch : Ch) : p.put ch (p.get ch) = p := by
  cases ch <;> rfl

theorem ne_iff_eq_other (c d : Ch) : c ≠ d ↔ c = d.other := by
  cases c <;> cases d <;> decide

@[simp] theorem setGie_cfg (v : Bool) (s : State) : (setGie v s).cfg = s.cfg := rfl
@[simp] theorem setGie_seq (v : Bool) (s : State) : (setGie v s).seq = s.seq := rfl
@[simp] theorem setGie_tclk (v : Bool) (s : State) : (setGie v s).tclk = s.tclk := rfl
@[simp] theorem setGie_tmode (v : Bool) (s : State) : (setGie v s).tmode = s.tmode := rfl
@[simp] theorem setGie_icr (v : Bool) (s : State) : (setGie v s).icr = s.icr := rfl
@[simp] theorem setGie_ocr (v : Bool) (s : State) : (setGie v s).ocr = s.ocr := rfl
@[simp] theorem setGie_ocie (v : Bool) (s : State) : (setGie v s).ocie = s.ocie := rfl
@[simp] theorem setGie_ocf (v : Bool) (s : State) : (setGie v s).ocf = s.ocf := rfl
@[simp] theorem setGie_gie (v : Bool) (s : State) : (setGie v s).gie = v := rfl
@[simp] theorem setGie_pol (v : Bool) (s : State) : (setGie v s).pol = s.pol := rfl
@[simp] theorem setGie_pinlvl (v : Bool) (s : State) : (setGie v s).pinlvl = s.pinlvl := rfl
@[simp] theorem setGie_pindir (v : Bool) (s : State) : (setGie v s).pindir = s.pindir := rfl
@[simp] theorem setGie_params (v : Bool) (s : State) : (setGie v s).params = s.params := rfl
@[simp] theorem setGie_rsp (v : Bool) (s : State) : (setGie v s).rsp = s.rsp := rfl
@[simp] theorem setGie_draws (v : Bool) (s : State) : (setGie v s).draws = s.draws := rfl
@[simp] theorem setGie_rx (v : Bool) (s : State) : (setGie v s).rx = s.rx := rfl
@[simp] theorem setGie_tx (v : Bool) (s : State) : (setGie v s).tx = s.tx := rfl
@[simp] theorem setGie_hostRx (v : Bool) (s : State) : (setGie v s).hostRx = s.hostRx := rfl
@[simp] theorem setGie_hostRsp (v : Bool) (s : State) : (setGie v s).hostRsp = s.hostRsp := rfl
@[simp] theorem setGie_schedule (v : Bool) (s : State) : (setGie v s).schedule = s.schedule := rfl

@[simp] theorem setIrqEnable_cfg (ch : Ch) (v : Bool) (s : State) : (setIrqEnable ch v s).cfg = s.cfg := rfl
@[simp] theorem setIrqEnable_seq (ch : Ch) (v : Bool) (s : State) : (setIrqEnable ch v s).seq = s.seq := rfl
@[simp] theorem setIrqEnable_tclk (ch : Ch) (v : Bool) (s : State) : (setIrqEnable ch v s).tclk = s.tclk := rfl
@[simp] theorem setIrqEnable_tmode (ch : Ch) (v : Bool) (s : State) : (setIrqEnable ch v s).tmode = s.tmode := rfl
@[simp] theorem setIrqEnable_icr (ch : Ch) (v : Bool) (s : State) : (setIrqEnable ch v s).icr = s.icr := rfl
@[simp] theorem setIrqEnable_ocr (ch : Ch) (v : Bool) (s : State) : (setIrqEnable ch v s).ocr = s.ocr := rfl
@[simp] theorem setIrqEnable_ocie (ch : Ch) (v : Bool) (s : State) : (setIrqEnable ch v s).ocie = s.ocie.put ch v := rfl
@[simp] theorem setIrqEnable_ocf (ch : Ch) (v : Bool) (s : State) : (setIrqEnable ch v s).ocf = s.ocf := rfl
@[simp] theorem setIrqEnable_gie (ch : Ch) (v : Bool) (s : State) : (setIrqEnable ch v s).gie = s.gie := rfl
@[simp] theorem setIrqEnable_pol (ch : Ch) (v : Bool) (s : State) : (setIrqEnable ch v s).pol = s.pol := rfl
@[simp] theorem setIrqEnable_pinlvl (ch : Ch) (v : Bool) (s : State) : (setIrqEnable ch v s).pinlvl = s.pinlvl := rfl
@[simp] theorem setIrqEnable_pindir (ch : Ch) (v : Bool) (s : State) : (setIrqEnable ch v s).pindir = s.pindir := rfl
@[simp] theorem setIrqEnable_params (ch : Ch) (v : Bool) (s : State) : (setIrqEnable ch v s).params = s.params := rfl
@[simp] theorem setIrqEnable_rsp (ch : Ch) (v : Bool) (s : State) : (setIrqEnable ch v s).rsp = s.rsp := rfl
@[simp] theorem setIrqEnable_draws (ch : Ch) (v : Bool) (s : State) : (setIrqEnable ch v s).draws = s.draws := rfl
@[simp] theorem setIrqEnable_rx (ch : Ch) (v : Bool) (s : State) : (setIrqEnable ch v s).rx = s.rx := rfl
@[simp] theorem setIrqEnable_tx (ch : Ch) (v : Bool) (s : State) : (setIrqEnable ch v s).tx = s.tx := rfl
@[simp] theorem setIrqEnable_hostRx (ch : Ch) (v : Bool) (s : State) : (setIrqEnable ch v s).hostRx = s.hostRx := rfl
@[simp] theorem setIrqEnable_hostRsp (ch : Ch) (v : Bool) (s : State) : (setIrqEnable ch v s).hostRsp = s.hostRsp := rfl
@[simp] theorem setIrqEnable_schedule (ch : Ch) (v : Bool) (s : State) : (setIrqEnable ch v s).schedule = s.schedule := rfl

@[simp] theorem setMatchFlag_cfg (ch : Ch) (v : Bool) (s : State) : (setMatchFlag ch v s).cfg = s.cfg := rfl
@[simp] theorem setMatchFlag_seq (ch : Ch) (v : Bool) (s : State) : (setMatchFlag ch v s).seq = s.seq := rfl
@[simp] theorem setMatchFlag_tclk (ch : Ch) (v : Bool) (s : State) : (setMatchFlag ch v s).tclk = s.tclk := rfl
@[simp] theorem setMatchFlag_tmode (ch : Ch) (v : Bool) (s : State) : (setMatchFlag ch v s).tmode = s.tmode := rfl
@[simp] theorem setMatchFlag_icr (ch : Ch) (v : Bool) (s : State) : (setMatchFlag ch v s).icr = s.icr := rfl
@[simp] theorem setMatchFlag_ocr (ch : Ch) (v : Bool) (s : State) : (setMatchFlag ch v s).ocr = s.ocr := rfl
@[simp] theorem setMatchFlag_ocie (ch : Ch) (v : Bool) (s : State) : (setMatchFlag ch v s).ocie = s.ocie := rfl
@[simp] theorem setMatchFlag_ocf (ch : Ch) (v : Bool) (s : State) : (setMatchFlag ch v s).ocf = s.ocf.put ch v := rfl
@[simp] theorem setMatchFlag_gie (ch : Ch) (v : Bool) (s : State) : (setMatchFlag ch v s).gie = s.gie := rfl
@[simp] theorem setMatchFlag_pol (ch : Ch) (v : Bool) (s : State) : (setMatchFlag ch v s).pol = s.pol := rfl
@[simp] theorem setMatchFlag_pinlvl (ch : Ch) (v : Bool) (s : State) : (setMatchFlag ch v s).pinlvl = s.pinlvl := rfl
@[simp] theorem setMatchFlag_pindir (ch : Ch) (v : Bool) (s : State) : (setMatchFlag ch v s).pindir = s.pindir := rfl
@[simp] theorem setMatchFlag_params (ch : Ch) (v : Bool) (s : State) : (setMatchFlag ch v s).params = s.params := rfl
@[simp] theorem setMatchFlag_rsp (ch : Ch) (v : Bool) (s : State) : (setMatchFlag ch v s).rsp = s.rsp := rfl
@[simp] theorem setMatchFlag_draws (ch : Ch) (v : Bool) (s : State) : (setMatchFlag ch v s).draws = s.draws := rfl
@[simp] theorem setMatchFlag_rx (ch : Ch) (v : Bool) (s : State) : (setMatchFlag ch v s).rx = s.rx := rfl
@[simp] theorem setMatchFlag_tx (ch : Ch) (v : Bool) (s : State) : (setMatchFlag ch v s).tx = s.tx := rfl
@[simp] theorem setMatchFlag_hostRx (ch : Ch) (v : Bool) (s : State) : (setMatchFlag ch v s).hostRx = s.hostRx := rfl
@[simp] theorem setMatchFlag_hostRsp (ch : Ch) (v : Bool) (s : State) : (setMatchFlag ch v s).hostRsp = s.hostRsp := rfl
@[simp] theorem setMatchFlag_schedule (ch : Ch) (v : Bool) (s : State) : (setMatchFlag ch v s).schedule = s.schedule := rfl

@[simp] theorem setMode_cfg (m : Mode) (s : State) : (setMode m s).cfg = s.cfg := rfl
@[simp] theorem setMode_seq (m : Mode) (s : State) : (setMode m s).seq = s.seq := rfl
@[simp] theorem setMode_tclk (m : Mode) (s : State) : (setMode m s).tclk = s.tclk := rfl
@[simp] theorem setMode_tmode (m : Mode) (s : State) : (setMode m s).tmode = m := rfl
@[simp] theorem setMode_icr (m : Mode) (s : State) : (setMode m s).icr = s.icr := rfl
@[simp] theorem setMode_ocr (m : Mode) (s : State) : (setMode m s).ocr = s.ocr := rfl
@[simp] theorem setMode_ocie (m : Mode) (s : State) : (setMode m s).ocie = s.ocie := rfl
@[simp] theorem setMode_ocf (m : Mode) (s : State) : (setMode m s).ocf = s.ocf := rfl
@[simp] theorem setMode_gie (m : Mode) (s : State) : (setMode m s).gie = s.gie := rfl
@[simp] theorem setMode_pol (m : Mode) (s : State) : (setMode m s).pol = s.pol := rfl
@[simp] theorem setMode_pinlvl (m : Mode) (s : State) : (setMode m s).pinlvl = s.pinlvl := rfl
@[simp] theorem setMode_pindir (m : Mode) (s : State) : (setMode m s).pindir = s.pindir := rfl
@[simp] theorem setMode_params (m : Mode) (s : State) : (setMode m s).params = s.params := rfl
@[simp] theorem setMode_rsp (m : Mode) (s : State) : (setMode m s).rsp = s.rsp := rfl
@[simp] theorem setMode_draws (m : Mode) (s : State) : (setMode m s).draws = s.draws := rfl
@[simp] theorem setMode_rx (m : Mode) (s : State) : (setMode m s).rx = s.rx := rfl
@[simp] theorem setMode_tx (m : Mode) (s : State) : (setMode m s).tx = s.tx := rfl
@[simp] theorem setMode_hostRx (m : Mode) (s : State) : (setMode m s).hostRx = s.hostRx := rfl
@[simp] theorem setMode_hostRsp (m : Mode) (s : State) : (setMode m s).hostRsp = s.hostRsp := rfl
@[simp] theorem setMode_schedule (m : Mode) (s : State) : (setMode m s).schedule = s.schedule := rfl

@[simp] theorem writeTop_cfg (top : Half) (s : State) : (writeTop top s).cfg = s.cfg := rfl
@[simp] theorem writeTop_seq (top : Half) (s : State) : (writeTop top s).seq = s.seq := rfl
@[simp] theorem writeTop_tclk (top : Half) (s : State) : (writeTop top s).tclk = s.tclk := rfl
@[simp] theorem writeTop_tmode (top : Half) (s : State) : (writeTop top s).tmode = s.tmode := rfl
@[simp] theorem writeTop_icr (top : Half) (s : State) : (writeTop top s).icr = top := rfl
@[simp] theorem writeTop_ocr (top : Half) (s : State) : (writeTop top s).ocr = s.ocr := rfl
@[simp] theorem writeTop_ocie (top : Half) (s : State) : (writeTop top s).ocie = s.ocie := rfl
@[simp] theorem writeTop_ocf (top : Half) (s : State) : (writeTop top s).ocf = s.ocf := rfl
@[simp] theorem writeTop_gie (top : Half) (s : State) : (writeTop top s).gie = s.gie := rfl
@[simp] theorem writeTop_pol (top : Half) (s : State) : (writeTop top s).pol = s.pol := rfl
@[simp] theorem writeTop_pinlvl (top : Half) (s : State) : (writeTop top s).pinlvl = s.pinlvl := rfl
@[simp] theorem writeTop_pindir (top : Half) (s : State) : (writeTop top s).pindir = s.pindir := rfl
@[simp] theorem writeTop_params (top : Half) (s : State) : (writeTop top s).params = s.params := rfl
@[simp] theorem writeTop_rsp (top : Half) (s : State) : (writeTop top s).rsp = s.rsp := rfl
@[simp] theorem writeTop_draws (top : Half) (s : State) : (writeTop top s).draws = s.draws := rfl
@[simp] theorem writeTop_rx (top : Half) (s : State) : (writeTop top s).rx = s.rx := rfl
@[simp] theorem writeTop_tx (top : Half) (s : State) : (writeTop top s).tx = s.tx := rfl
@[simp] theorem writeTop_hostRx (top : Half) (s : State) : (writeTop top s).hostRx = s.hostRx := rfl
@[simp] theorem writeTop_hostRsp (top : Half) (s : State) : (writeTop top s).hostRsp = s.hostRsp := rfl
@[simp] theorem writeTop_schedule (top : Half) (s : State) : (writeTop top s).schedule = s.schedule := rfl

@[simp] theorem setPrescaler_cfg (k : Sel) (s : State) : (setPrescaler k s).cfg = s.cfg := rfl
@[simp] theorem setPrescaler_seq (k : Sel) (s : State) : (setPrescaler k s).seq = s.seq := rfl
@[simp] theorem setPrescaler_tclk (k : Sel) (s : State) : (setPrescaler k s).tclk = k := rfl
@[simp] theorem setPrescaler_tmode (k : Sel) (s : State) : (setPrescaler k s).tmode = s.tmode := rfl
@[simp] theorem setPrescaler_icr (k : Sel) (s : State) : (setPrescaler k s).icr = s.icr := rfl
@[simp] theorem setPrescaler_ocr (k : Sel) (s : State) : (setPrescaler k s).ocr = s.ocr := rfl
@[simp] theorem setPrescaler_ocie (k : Sel) (s : State) : (setPrescaler k s).ocie = s.ocie := rfl
@[simp] theorem setPrescaler_ocf (k : Sel) (s : State) : (setPrescaler k s).ocf = s.ocf := rfl
@[simp] theorem setPrescaler_gie (k : Sel) (s : State) : (setPrescaler k s).gie = s.gie := rfl
@[simp] theorem setPrescaler_pol (k : Sel) (s : State) : (setPrescaler k s).pol = s.pol := rfl
@[simp] theorem setPrescaler_pinlvl (k : Sel) (s : State) : (setPrescaler k s).pinlvl = s.pinlvl := rfl
@[simp] theorem setPrescaler_pindir (k : Sel) (s : State) : (setPrescaler k s).pindir = s.pindir := rfl
@[simp] theorem setPrescaler_params (k : Sel) (s : State) : (setPrescaler k s).params = s.params := rfl
@[simp] theorem setPrescaler_rsp (k : Sel) (s : State) : (setPrescaler k s).rsp = s.rsp := rfl
@[simp] theorem setPrescaler_draws (k : Sel) (s : State) : (setPrescaler k s).draws = s.draws := rfl
@[simp] theorem setPrescaler_rx (k : Sel) (s : State) : (setPrescaler k s).rx = s.rx := rfl
@[simp] theorem setPrescaler_tx (k : Sel) (s : State) : (setPrescaler k s).tx = s.tx := rfl
@[simp] theorem setPrescaler_hostRx (k : Sel) (s : State) : (setPrescaler k s).hostRx = s.hostRx := rfl
@[simp] theorem setPrescaler_hostRsp (k : Sel) (s : State) : (setPrescaler k s).hostRsp = s.hostRsp := rfl
@[simp] theorem setPrescaler_schedule (k : Sel) (s : State) : (setPrescaler k s).schedule = s.schedule := rfl

@[simp] theorem writeCompare_cfg (ch : Ch) (v : Half) (s : State) : (writeCompare ch v s).cfg = s.cfg := rfl
@[simp] theorem writeCompare_seq (ch : Ch) (v : Half) (s : State) : (writeCompare ch v s).seq = s.seq := rfl
@[simp] theorem writeCompare_tclk (ch : Ch) (v : Half) (s : State) : (writeCompare ch v s).tclk = s.tclk := rfl
@[simp] theorem writeCompare_tmode (ch : Ch) (v : Half) (s : State) : (writeCompare ch v s).tmode = s.tmode := rfl
@[simp] theorem writeCompare_icr (ch : Ch) (v : Half) (s : State) : (writeCompare ch v s).icr = s.icr := rfl
@[simp] theorem writeCompare_ocr (ch : Ch) (v : Half) (s : State) : (writeCompare ch v s).ocr = s.ocr.put ch v := rfl
@[simp] theorem writeCompare_ocie (ch : Ch) (v : Half) (s : State) : (writeCompare ch v s).ocie = s.ocie := rfl
@[simp] theorem writeCompare_ocf (ch : Ch) (v : Half) (s : State) : (writeCompare ch v s).ocf = s.ocf := rfl
@[simp] theorem writeCompare_gie (ch : Ch) (v : Half) (s : State) : (writeCompare ch v s).gie = s.gie := rfl
@[simp] theorem writeCompare_pol (ch : Ch) (v : Half) (s : State) : (writeCompare ch v s).pol = s.pol := rfl
@[simp] theorem writeCompare_pinlvl (ch : Ch) (v : Half) (s : State) : (writeCompare ch v s).pinlvl = s.pinlvl := rfl
@[simp] theorem writeCompare_pindir (ch : Ch) (v : Half) (s : State) : (writeCompare ch v s).pindir = s.pindir := rfl
@[simp] theorem writeCompare_params (ch : Ch) (v : Half) (s : State) : (writeCompare ch v s).params = s.params := rfl
@[simp] theorem writeCompare_rsp (ch : Ch) (v : Half) (s : State) : (writeCompare ch v s).rsp = s.rsp := rfl
@[simp] theorem writeCompare_draws (ch : Ch) (v : Half) (s : State) : (writeCompare ch v s).draws = s.draws := rfl
@[simp] theorem writeCompare_rx (ch : Ch) (v : Half) (s : State) : (writeCompare ch v s).rx = s.rx := rfl
@[simp] theorem writeCompare_tx (ch : Ch) (v : Half) (s : State) : (writeCompare ch v s).tx = s.tx := rfl
@[simp] theorem writeCompare_hostRx (ch : Ch) (v : Half) (s : State) : (writeCompare ch v s).hostRx = s.hostRx := rfl
@[simp] theorem writeCompare_hostRsp (ch : Ch) (v : Half) (s : State) : (writeCompare ch v s).hostRsp = s.hostRsp := rfl
@[simp] theorem writeCompare_schedule (ch : Ch) (v : Half) (s : State) : (writeCompare ch v s).schedule = s.schedule := rfl

@[simp] theorem setDirectionOutput_cfg (ch : Ch) (s : State) : (setDirectionOutput ch s).cfg = s.cfg := rfl
@[simp] theorem setDirectionOutput_seq (ch : Ch) (s : State) : (setDirectionOutput ch s).seq = s.seq := rfl
@[simp] theorem setDirectionOutput_tclk (ch : Ch) (s : State) : (setDirectionOutput ch s).tclk = s.tclk := rfl
@[simp] theorem setDirectionOutput_tmode (ch : Ch) (s : State) : (setDirectionOutput ch s).tmode = s.tmode := rfl
@[simp] theorem setDirectionOutput_icr (ch : Ch) (s : State) : (setDirectionOutput ch s).icr = s.icr := rfl
@[simp] theorem setDirectionOutput_ocr (ch : Ch) (s : State) : (setDirectionOutput ch s).ocr = s.ocr := rfl
@[simp] theorem setDirectionOutput_ocie (ch : Ch) (s : State) : (setDirectionOutput ch s).ocie = s.ocie := rfl
@[simp] theorem setDirectionOutput_ocf (ch : Ch) (s : State) : (setDirectionOutput ch s).ocf = s.ocf := rfl
@[simp] theorem setDirectionOutput_gie (ch : Ch) (s : State) : (setDirectionOutput ch s).gie = s.gie := rfl
@[simp] theorem setDirectionOutput_pol (ch : Ch) (s : State) : (setDirectionOutput ch s).pol = s.pol := rfl
@[simp] theorem setDirectionOutput_pinlvl (ch : Ch) (s : State) : (setDirectionOutput ch s).pinlvl = s.pinlvl := rfl
@[simp] theorem setDirectionOutput_pindir (ch : Ch) (s : State) : (setDirectionOutput ch s).pindir = s.pindir.put ch true := rfl
@[simp] theorem setDirectionOutput_params (ch : Ch) (s : State) : (setDirectionOutput ch s).params = s.params := rfl
@[simp] theorem setDirectionOutput_rsp (ch : Ch) (s : State) : (setDirectionOutput ch s).rsp = s.rsp := rfl
@[simp] theorem setDirectionOutput_draws (ch : Ch) (s : State) : (setDirectionOutput ch s).draws = s.draws := rfl
@[simp] theorem setDirectionOutput_rx (ch : Ch) (s : State) : (setDirectionOutput ch s).rx = s.rx := rfl
@[simp] theorem setDirectionOutput_tx (ch : Ch) (s : State) : (setDirectionOutput ch s).tx = s.tx := rfl
@[simp] theorem setDirectionOutput_hostRx (ch : Ch) (s : State) : (setDirectionOutput ch s).hostRx = s.hostRx := rfl
@[simp] theorem setDirectionOutput_hostRsp (ch : Ch) (s : State) : (setDirectionOutput ch s).hostRsp = s.hostRsp := rfl
@[simp] theorem setDirectionOutput_schedule (ch : Ch) (s : State) : (setDirectionOutput ch s).schedule = s.schedule := rfl

@[simp] theorem setLevel_cfg (ch : Ch) (l : Level) (s : State) : (setLevel ch l s).cfg = s.cfg := rfl
@[simp] theorem setLevel_seq (ch : Ch) (l : Level) (s : State) : (setLevel ch l s).seq = s.seq := rfl
@[simp] theorem setLevel_tclk (ch : Ch) (l : Level) (s : State) : (setLevel ch l s).tclk = s.tclk := rfl
@[simp] theorem setLevel_tmode (ch : Ch) (l : Level) (s : State) : (setLevel ch l s).tmode = s.tmode := rfl
@[simp] theorem setLevel_icr (ch : Ch) (l : Level) (s : State) : (setLevel ch l s).icr = s.icr := rfl
@[simp] theorem setLevel_ocr (ch : Ch) (l : Level) (s : State) : (setLevel ch l s).ocr = s.ocr := rfl
@[simp] theorem setLevel_ocie (ch : Ch) (l : Level) (s : State) : (setLevel ch l s).ocie = s.ocie := rfl
@[simp] theorem setLevel_ocf (ch : Ch) (l : Level) (s : State) : (setLevel ch l s).ocf = s.ocf := rfl
@[simp] theorem setLevel_gie (ch : Ch) (l : Level) (s : State) : (setLevel ch l s).gie = s.gie := rfl
@[simp] theorem setLevel_pol (ch : Ch) (l : Level) (s : State) : (setLevel ch l s).pol = s.pol := rfl
@[simp] theorem setLevel_pinlvl (ch : Ch) (l : Level) (s : State) : (setLevel ch l s).pinlvl = s.pinlvl.put ch l := rfl
@[simp] theorem setLevel_pindir (ch : Ch) (l : Level) (s : State) : (setLevel ch l s).pindir = s.pindir := rfl
@[simp] theorem setLevel_params (ch : Ch) (l : Level) (s : State) : (setLevel ch l s).params = s.params := rfl
@[simp] theorem setLevel_rsp (ch : Ch) (l : Level) (s : State) : (setLevel ch l s).rsp = s.rsp := rfl
@[simp] theorem setLevel_draws (ch : Ch) (l : Level) (s : State) : (setLevel ch l s).draws = s.draws := rfl
@[simp] theorem setLevel_rx (ch : Ch) (l : Level) (s : State) : (setLevel ch l s).rx = s.rx := rfl
@[simp] theorem setLevel_tx (ch : Ch) (l : Level) (s : State) : (setLevel ch l s).tx = s.tx := rfl
@[simp] theorem setLevel_hostRx (ch : Ch) (l : Level) (s : State) : (setLevel ch l s).hostRx = s.hostRx := rfl
@[simp] theorem setLevel_hostRsp (ch : Ch) (l : Level) (s : State) : (setLevel ch l s).hostRsp = s.hostRsp := rfl
@[simp] theorem setLevel_schedule (ch : Ch) (l : Level) (s : State) : (setLevel ch l s).schedule = s.schedule := rfl

@[simp] theorem setPolicy_cfg (ch : Ch) (p : Policy) (s : State) : (setPolicy ch p s).cfg = s.cfg := rfl
@[simp] theorem setPolicy_seq (ch : Ch) (p : Policy) (s : State) : (setPolicy ch p s).seq = s.seq := rfl
@[simp] theorem setPolicy_tclk (ch : Ch) (p : Policy) (s : State) : (setPolicy ch p s).tclk = s.tclk := rfl
@[simp] theorem setPolicy_tmode (ch : Ch) (p : Policy) (s : State) : (setPolicy ch p s).tmode = s.tmode := rfl
@[simp] theorem setPolicy_icr (ch : Ch) (p : Policy) (s : State) : (setPolicy ch p s).icr = s.icr := rfl
@[simp] theorem setPolicy_ocr (ch : Ch) (p : Policy) (s : State) : (setPolicy ch p s).ocr = s.ocr := rfl
@[simp] theorem setPolicy_ocie (ch : Ch) (p : Policy) (s : State) : (setPolicy ch p s).ocie = s.ocie := rfl
@[simp] theorem setPolicy_ocf (ch : Ch) (p : Policy) (s : State) : (setPolicy ch p s).ocf = s.ocf := rfl
@[simp] theorem setPolicy_gie (ch : Ch) (p : Policy) (s : State) : (setPolicy ch p s).gie = s.gie := rfl
@[simp] theorem setPolicy_pol (ch : Ch) (p : Policy) (s : State) : (setPolicy ch p s).pol = s.pol.put ch p := rfl
@[simp] theorem setPolicy_pinlvl (ch : Ch) (p : Policy) (s : State) : (setPolicy ch p s).pinlvl = s.pinlvl := rfl
@[simp] theorem setPolicy_pindir (ch : Ch) (p : Policy) (s : State) : (setPolicy ch p s).pindir = s.pindir := rfl
@[simp] theorem setPolicy_params (ch : Ch) (p : Policy) (s : State) : (setPolicy ch p s).params = s.params := rfl
@[simp] theorem setPolicy_rsp (ch : Ch) (p : Policy) (s : State) : (setPolicy ch p s).rsp = s.rsp := rfl
@[simp] theorem setPolicy_draws (ch : Ch) (p : Policy) (s : State) : (setPolicy ch p s).draws = s.draws := rfl
@[simp] theorem setPolicy_rx (ch : Ch) (p : Policy) (s : State) : (setPolicy ch p s).rx = s.rx := rfl
@[simp] theorem setPolicy_tx (ch : Ch) (p : Policy) (s : State) : (setPolicy ch p s).tx = s.tx := rfl
@[simp] theorem setPolicy_hostRx (ch : Ch) (p : Policy) (s : State) : (setPolicy ch p s).hostRx = s.hostRx := rfl
@[simp] theorem setPolicy_hostRsp (ch : Ch) (p : Policy) (s : State) : (setPolicy ch p s).hostRsp = s.hostRsp := rfl
@[simp] theorem setPolicy_schedule (ch : Ch) (p : Policy) (s : State) : (setPolicy ch p s).schedule = s.schedule := rfl

@[simp] theorem installConfig_cfg (k : Sel) (top : Half) (m : Mode) (s : State) : (installConfig k top m s).cfg = ⟨true, k, top, m⟩ := rfl
@[simp] theorem installConfig_seq (k : Sel) (top : Half) (m : Mode) (s : State) : (installConfig k top m s).seq = s.seq := rfl
@[simp] theorem installConfig_tclk (k : Sel) (top : Half) (m : Mode) (s : State) : (installConfig k top m s).tclk = s.tclk := rfl
@[simp] theorem installConfig_tmode (k : Sel) (top : Half) (m : Mode) (s : State) : (installConfig k top m s).tmode = s.tmode := rfl
@[simp] theorem installConfig_icr (k : Sel) (top : Half) (m : Mode) (s : State) : (installConfig k top m s).icr = s.icr := rfl
@[simp] theorem installConfig_ocr (k : Sel) (top : Half) (m : Mode) (s : State) : (installConfig k top m s).ocr = s.ocr := rfl
@[simp] theorem installConfig_ocie (k : Sel) (top : Half) (m : Mode) (s : State) : (installConfig k top m s).ocie = s.ocie := rfl
@[simp] theorem installConfig_ocf (k : Sel) (top : Half) (m : Mode) (s : State) : (installConfig k top m s).ocf = s.ocf := rfl
@[simp] theorem installConfig_gie (k : Sel) (top : Half) (m : Mode) (s : State) : (installConfig k top m s).gie = s.gie := rfl
@[simp] theorem installConfig_pol (k : Sel) (top : Half) (m : Mode) (s : State) : (installConfig k top m s).pol = s.pol := rfl
@[simp] theorem installConfig_pinlvl (k : Sel) (top : Half) (m : Mode) (s : State) : (installConfig k top m s).pinlvl = s.pinlvl := rfl
@[simp] theorem installConfig_pindir (k : Sel) (top : Half) (m : Mode) (s : State) : (installConfig k top m s).pindir = s.pindir := rfl
@[simp] theorem installConfig_params (k : Sel) (top : Half) (m : Mode) (s : State) : (installConfig k top m s).params = s.params := rfl
@[simp] theorem installConfig_rsp (k : Sel) (top : Half) (m : Mode) (s : State) : (installConfig k top m s).rsp = s.rsp := rfl
@[simp] theorem installConfig_draws (k : Sel) (top : Half) (m : Mode) (s : State) : (installConfig k top m s).draws = s.draws := rfl
@[simp] theorem installConfig_rx (k : Sel) (top : Half) (m : Mode) (s : State) : (installConfig k top m s).rx = s.rx := rfl
@[simp] theorem installConfig_tx (k : Sel) (top : Half) (m : Mode) (s : State) : (installConfig k top m s).tx = s.tx := rfl
@[simp] theorem installConfig_hostRx (k : Sel) (top : Half) (m : Mode) (s : State) : (installConfig k top m s).hostRx = s.hostRx := rfl
@[simp] theorem installConfig_hostRsp (k : Sel) (top : Half) (m : Mode) (s : State) : (installConfig k top m s).hostRsp = s.hostRsp := rfl
@[simp] theorem installConfig_schedule (k : Sel) (top : Half) (m : Mode) (s : State) : (installConfig k top m s).schedule = s.schedule := rfl

@[simp] theorem installTrain_cfg (v0 v1 r : Half) (ch : Ch) (s : State) : (installTrain v0 v1 r ch s).cfg = s.cfg := rfl
@[simp] theorem installTrain_seq (v0 v1 r : Half) (ch : Ch) (s : State) : (installTrain v0 v1 r ch s).seq = ⟨v0, v1, r, ch⟩ := rfl
@[simp] theorem installTrain_tclk (v0 v1 r : Half) (ch : Ch) (s : State) : (installTrain v0 v1 r ch s).tclk = s.tclk := rfl
@[simp] theorem installTrain_tmode (v0 v1 r : Half) (ch : Ch) (s : State) : (installTrain v0 v1 r ch s).tmode = s.tmode := rfl
@[simp] theorem installTrain_icr (v0 v1 r : Half) (ch : Ch) (s : State) : (installTrain v0 v1 r ch s).icr = s.icr := rfl
@[simp] theorem installTrain_ocr (v0 v1 r : Half) (ch : Ch) (s : State) : (installTrain v0 v1 r ch s).ocr = s.ocr := rfl
@[simp] theorem installTrain_ocie (v0 v1 r : Half) (ch : Ch) (s : State) : (installTrain v0 v1 r ch s).ocie = s.ocie := rfl
@[simp] theorem installTrain_ocf (v0 v1 r : Half) (ch : Ch) (s : State) : (installTrain v0 v1 r ch s).ocf = s.ocf := rfl
@[simp] theorem installTrain_gie (v0 v1 r : Half) (ch : Ch) (s : State) : (installTrain v0 v1 r ch s).gie = s.gie := rfl
@[simp] theorem installTrain_pol (v0 v1 r : Half) (ch : Ch) (s : State) : (installTrain v0 v1 r ch s).pol = s.pol := rfl
@[simp] theorem installTrain_pinlvl (v0 v1 r : Half) (ch : Ch) (s : State) : (installTrain v0 v1 r ch s).pinlvl = s.pinlvl := rfl
@[simp] theorem installTrain_pindir (v0 v1 r : Half) (ch : Ch) (s : State) : (installTrain v0 v1 r ch s).pindir = s.pindir := rfl
@[simp] theorem installTrain_params (v0 v1 r : Half) (ch : Ch) (s : State) : (installTrain v0 v1 r ch s).params = s.params := rfl
@[simp] theorem installTrain_rsp (v0 v1 r : Half) (ch : Ch) (s : State) : (installTrain v0 v1 r ch s).rsp = s.rsp := rfl
@[simp] theorem installTrain_draws (v0 v1 r : Half) (ch : Ch) (s : State) : (installTrain v0 v1 r ch s).draws = s.draws := rfl
@[simp] theorem installTrain_rx (v0 v1 r : Half) (ch : Ch) (s : State) : (installTrain v0 v1 r ch s).rx = s.rx := rfl
@[simp] theorem installTrain_tx (v0 v1 r : Half) (ch : Ch) (s : State) : (installTrain v0 v1 r ch s).tx = s.tx := rfl
@[simp] theorem installTrain_hostRx (v0 v1 r : Half) (ch : Ch) (s : State) : (installTrain v0 v1 r ch s).hostRx = s.hostRx := rfl
@[simp] theorem installTrain_hostRsp (v0 v1 r : Half) (ch : Ch) (s : State) : (installTrain v0 v1 r ch s).hostRsp = s.hostRsp := rfl
@[simp] theorem installTrain_schedule (v0 v1 r : Half) (ch : Ch) (s : State) : (installTrain v0 v1 r ch s).schedule = s.schedule := rfl

@[simp] theorem setRemaining_cfg (r : Half) (s : State) : (setRemaining r s).cfg = s.cfg := rfl
@[simp] theorem setRemaining_seq (r : Half) (s : State) : (setRemaining r s).seq = ⟨s.seq.value0, s.seq.value1, r, s.seq.active⟩ := rfl
@[simp] theorem setRemaining_tclk (r : Half) (s : State) : (setRemaining r s).tclk = s.tclk := rfl
@[simp] theorem setRemaining_tmode (r : Half) (s : State) : (setRemaining r s).tmode = s.tmode := rfl
@[simp] theorem setRemaining_icr (r : Half) (s : State) : (setRemaining r s).icr = s.icr := rfl
@[simp] theorem setRemaining_ocr (r : Half) (s : State) : (setRemaining r s).ocr = s.ocr := rfl
@[simp] theorem setRemaining_ocie (r : Half) (s : State) : (setRemaining r s).ocie = s.ocie := rfl
@[simp] theorem setRemaining_ocf (r : Half) (s : State) : (setRemaining r s).ocf = s.ocf := rfl
@[simp] theorem setRemaining_gie (r : Half) (s : State) : (setRemaining r s).gie = s.gie := rfl
@[simp] theorem setRemaining_pol (r : Half) (s : State) : (setRemaining r s).pol = s.pol := rfl
@[simp] theorem setRemaining_pinlvl (r : Half) (s : State) : (setRemaining r s).pinlvl = s.pinlvl := rfl
@[simp] theorem setRemaining_pindir (r : Half) (s : State) : (setRemaining r s).pindir = s.pindir := rfl
@[simp] theorem setRemaining_params (r : Half) (s : State) : (setRemaining r s).params = s.params := rfl
@[simp] theorem setRemaining_rsp (r : Half) (s : State) : (setRemaining r s).rsp = s.rsp := rfl
@[simp] theorem setRemaining_draws (r : Half) (s : State) : (setRemaining r s).draws = s.draws := rfl
@[simp] theorem setRemaining_rx (r : Half) (s : State) : (setRemaining r s).rx = s.rx := rfl
@[simp] theorem setRemaining_tx (r : Half) (s : State) : (setRemaining r s).tx = s.tx := rfl
@[simp] theorem setRemaining_hostRx (r : Half) (s : State) : (setRemaining r s).hostRx = s.hostRx := rfl
@[simp] theorem setRemaining_hostRsp (r : Half) (s : State) : (setRemaining r s).hostRsp = s.hostRsp := rfl
@[simp] theorem setRemaining_schedule (r : Half) (s : State) : (setRemaining r s).schedule = s.schedule := rfl

@[simp] theorem writeResponse_cfg (r : Response) (s : State) : (writeResponse r s).cfg = s.cfg := rfl
@[simp] theorem writeResponse_seq (r : Response) (s : State) : (writeResponse r s).seq = s.seq := rfl
@[simp] theorem writeResponse_tclk (r : Response) (s : State) : (writeResponse r s).tclk = s.tclk := rfl
@[simp] theorem writeResponse_tmode (r : Response) (s : State) : (writeResponse r s).tmode = s.tmode := rfl
@[simp] theorem writeResponse_icr (r : Response) (s : State) : (writeResponse r s).icr = s.icr := rfl
@[simp] theorem writeResponse_ocr (r : Response) (s : State) : (writeResponse r s).ocr = s.ocr := rfl
@[simp] theorem writeResponse_ocie (r : Response) (s : State) : (writeResponse r s).ocie = s.ocie := rfl
@[simp] theorem writeResponse_ocf (r : Response) (s : State) : (writeResponse r s).ocf = s.ocf := rfl
@[simp] theorem writeResponse_gie (r : Response) (s : State) : (writeResponse r s).gie = s.gie := rfl
@[simp] theorem writeResponse_pol (r : Response) (s : State) : (writeResponse r s).pol = s.pol := rfl
@[simp] theorem writeResponse_pinlvl (r : Response) (s : State) : (writeResponse r s).pinlvl = s.pinlvl := rfl
@[simp] theorem writeResponse_pindir (r : Response) (s : State) : (writeResponse r s).pindir = s.pindir := rfl
@[simp] theorem writeResponse_params (r : Response) (s : State) : (writeResponse r s).params = s.params := rfl
@[simp] theorem writeResponse_rsp (r : Response) (s : State) : (writeResponse r s).rsp = some (responseWord r) := rfl
@[simp] theorem writeResponse_draws (r : Response) (s : State) : (writeResponse r s).draws = s.draws := rfl
@[simp] theorem writeResponse_rx (r : Response) (s : State) : (writeResponse r s).rx = s.rx := rfl
@[simp] theorem writeResponse_tx (r : Response) (s : State) : (writeResponse r s).tx = s.tx := rfl
@[simp] theorem writeResponse_hostRx (r : Response) (s : State) : (writeResponse r s).hostRx = s.hostRx := rfl
@[simp] theorem writeResponse_hostRsp (r : Response) (s : State) : (writeResponse r s).hostRsp = s.hostRsp := rfl
@[simp] theorem writeResponse_schedule (r : Response) (s : State) : (writeResponse r s).schedule = s.schedule := rfl

end Sys2Proof.Machine
end

