-- ==== Sys2Proof/Laws/Ops.lean ====
section
/-! SUPPORT. What each shared operation can do: responding, raising, the critical section, the interrupt's entry and
return, and the writes that bind, unbind and shut down a channel. -/

namespace Sys2Proof.Machine

/-! ## Responding -/

theorem respond_next_iff (r : Response) (s t : State) : respond r s = .next t ↔ t = writeResponse r s := by
  simp [respond, eq_comm]

theorem raise_next_iff (e : Err) (s t : State) : raise e s = .next t ↔ t = writeResponse { err := e } s := by
  simp [raise, respond, eq_comm]

@[simp] theorem setGie_setGie (v w : Bool) (s : State) : setGie v (setGie w s) = setGie v s := rfl

@[simp] theorem setGie_self (s : State) : setGie s.gie s = s := rfl

theorem setGie_writeResponse (v : Bool) (r : Response) (s : State) :
    setGie v (writeResponse r s) = writeResponse r (setGie v s) := rfl

@[simp] theorem writeResponse_twice (r q : Response) (s : State) :
    writeResponse r (writeResponse q s) = writeResponse r s := rfl

/-! ## The critical section -/

theorem critical_next_iff (body : State → Result) (s t : State) :
    critical body s = .next t ↔ ∃ u, body (setGie false s) = .next u ∧ t = setGie s.gie u := by
  unfold critical
  cases h : body (setGie false s) <;> simp [eq_comm]

/-- `S.GIE` after a critical section is what it was before it (R55). -/
theorem critical_gie {body : State → Result} {s t : State} (h : critical body s = .next t) : t.gie = s.gie := by
  obtain ⟨u, -, rfl⟩ := (critical_next_iff body s t).1 h
  rfl

theorem critical_respond (r : Response) (f : State → State) (s : State) :
    critical (fun s => respond r (f s)) s = .next (writeResponse r (setGie s.gie (f (setGie false s)))) := rfl

theorem critical_raise (e : Err) (s : State) : critical (raise e) s = raise e s := rfl

/-! ## Writes to one channel

Each of the compound operations writes per-channel fields only, and of the named channel only. -/

theorem unbindPin_eq (ch : Ch) (s : State) :
    unbindPin ch s =
      { s with
        pol := s.pol.put ch .disconnected
        pinlvl := if s.pol.get ch = .disconnected then s.pinlvl else s.pinlvl.put ch .X } := by
  unfold unbindPin
  split
  · rename_i h
    rw [← h, put_get]
  · rfl

theorem bindPin_eq (ch : Ch) (p : Policy) (s : State) :
    bindPin ch p s =
      { s with
        pol := s.pol.put ch p
        pindir := s.pindir.put ch true
        pinlvl := if policyIsPwm p then s.pinlvl.put ch .X else s.pinlvl } := by
  unfold bindPin
  dsimp only
  split <;> rfl

theorem shutDownPin_eq (ch : Ch) (s : State) :
    shutDownPin ch s =
      { s with
        pol := s.pol.put ch .disconnected
        pinlvl := s.pinlvl.put ch (levelOfBool s.params.idleLevel) } := rfl

theorem bypassWrites_eq (ch : Ch) (level : Bool) (s : State) :
    bypassWrites ch level s =
      { s with
        pol := s.pol.put ch .disconnected
        pindir := s.pindir.put ch true
        pinlvl := s.pinlvl.put ch (levelOfBool level) } := rfl

theorem pwmWrites_eq (ch : Ch) (m : SignalMode) (k : Sel) (top c : Half) (s : State) :
    pwmWrites ch m k top c s =
      { s with
        tmode := timerMode m
        icr := top
        ocr := s.ocr.put ch c
        cfg := { valid := true, psel := k, top := top, mode := timerMode m }
        pol := s.pol.put ch .nonInverting
        pindir := s.pindir.put ch true
        pinlvl := s.pinlvl.put ch .X
        tclk := k } := rfl

theorem retimeTimer_eq (psel : Sel) (run : Bool) (s : State) :
    retimeTimer psel run s = { s with tclk := if run = true ∨ s.tclk ≠ 0 then psel else s.tclk } := by
  unfold retimeTimer
  split <;> rfl

theorem configWrites_eq (ch : Ch) (m : Mode) (p : Policy) (psel : Sel) (top : Half) (run : Bool) (s : State) :
    configWrites ch m p psel top run s =
      { s with
        tmode := m
        icr := top
        cfg := { valid := true, psel := psel, top := top, mode := m }
        tclk := if run = true ∨ s.tclk ≠ 0 then psel else s.tclk
        pol := s.pol.put ch p
        pindir := if p = .disconnected then s.pindir else s.pindir.put ch true
        pinlvl :=
          if policyIsPwm p = true ∨ (p = .disconnected ∧ s.pol.get ch ≠ .disconnected) then s.pinlvl.put ch .X
          else s.pinlvl } := by
  unfold configWrites
  rw [retimeTimer_eq]
  by_cases hp : p = .disconnected
  · subst hp
    rw [if_pos rfl, unbindPin_eq]
    by_cases hq : s.pol.get ch = .disconnected
    · have hr : ¬(policyIsPwm .disconnected = true ∨ Policy.disconnected = .disconnected ∧ s.pol.get ch ≠ .disconnected) := by
        simp [hq, policyIsPwm]
      rw [if_neg hr, if_pos rfl]
      apply State.ext <;> first | rfl | exact if_pos hq
    · have hr : policyIsPwm .disconnected = true ∨ Policy.disconnected = .disconnected ∧ s.pol.get ch ≠ .disconnected :=
        .inr ⟨rfl, hq⟩
      rw [if_pos hr, if_pos rfl]
      apply State.ext <;> first | rfl | exact if_neg hq
  · simp only [bindPin_eq, hp, if_false, false_and, or_false]
    rfl

theorem preemptOther_eq (ch : Ch) (s : State) :
    preemptOther ch s =
      if s.seq.remaining ≠ 0 ∧ s.seq.active ≠ ch then
        { s with
          ocie := s.ocie.put s.seq.active false
          pol := s.pol.put s.seq.active .disconnected
          pinlvl := s.pinlvl.put s.seq.active (levelOfBool s.params.idleLevel) }
      else s := rfl

theorem trainWrites_eq (ch : Ch) (n : Half) (d1 d2 : Byte) (s : State) :
    trainWrites ch n d1 d2 s =
      { preemptOther ch s with
        seq :=
          { value0 := BitVec.ofNat 16 (encodeDuty s.cfg.top.toNat d1.toNat)
            value1 := BitVec.ofNat 16 (encodeDuty s.cfg.top.toNat d2.toNat)
            remaining := BitVec.ofNat 16 (2 * n.toNat)
            active := ch }
        ocr := s.ocr.put ch (BitVec.ofNat 16 (encodeDuty s.cfg.top.toNat d1.toNat))
        ocf := s.ocf.put ch false
        ocie := (preemptOther ch s).ocie.put ch true
        tclk := s.cfg.psel } := by
  unfold trainWrites
  rw [preemptOther_eq]
  split <;> rfl

theorem cancelTrain_eq (s : State) :
    cancelTrain s =
      { s with
        seq := { s.seq with remaining := 0 }
        pol := if s.seq.remaining ≠ 0 then s.pol.put s.seq.active .disconnected else s.pol
        pinlvl :=
          if s.seq.remaining ≠ 0 then s.pinlvl.put s.seq.active (levelOfBool s.params.idleLevel) else s.pinlvl } := by
  unfold cancelTrain
  by_cases h : s.seq.remaining ≠ 0
  · simp only [if_pos h]
    rfl
  · simp only [if_neg h]
    rw [← not_not.1 h]

theorem stopWrites_eq (s : State) :
    stopWrites s =
      { s with
        ocie := { a := false, b := false }
        tclk := 0
        seq := { s.seq with remaining := 0 }
        pol := if s.seq.remaining ≠ 0 then s.pol.put s.seq.active .disconnected else s.pol
        pinlvl :=
          if s.seq.remaining ≠ 0 then s.pinlvl.put s.seq.active (levelOfBool s.params.idleLevel) else s.pinlvl } := by
  rw [stopWrites, cancelTrain_eq]
  rfl

/-! ## The interrupt -/

theorem interruptReturn_entry (ch : Ch) (s : State) :
    interruptReturn s.gie (interruptEntry ch s) = setMatchFlag ch false s := rfl

/-- What a service step does (R153): three cases and nothing else. -/
theorem serviceChannel_eq (ch : Ch) (s : State) :
    serviceChannel ch s =
      if s.seq.remaining ≠ 0 ∧ s.seq.active = ch then
        if s.seq.remaining - 1 = 0 then
          { s with
            ocf := s.ocf.put ch false
            seq := { s.seq with remaining := 0 }
            ocie := s.ocie.put ch false
            tclk := 0
            pol := s.pol.put ch .disconnected
            pinlvl := s.pinlvl.put ch (levelOfBool s.params.idleLevel) }
        else
          { s with
            ocf := s.ocf.put ch false
            seq := { s.seq with remaining := s.seq.remaining - 1 }
            ocr := s.ocr.put ch
              (if (s.seq.remaining - 1).toNat % 2 = 1 then s.seq.value1 else s.seq.value0) }
      else { s with ocf := s.ocf.put ch false } := by
  unfold serviceChannel handleService
  by_cases h : s.seq.remaining ≠ 0 ∧ s.seq.active = ch
  · rw [if_pos h, if_pos (show (interruptEntry ch s).seq.remaining ≠ 0 ∧ (interruptEntry ch s).seq.active = ch from h)]
    dsimp only
    by_cases h1 : s.seq.remaining - 1 = 0
    · rw [if_pos h1, if_pos (by exact h1)]
      conv => rhs; rw [← h1]
      rfl
    · rw [if_neg h1, if_neg (by exact h1)]
      by_cases h2 : (s.seq.remaining - 1).toNat % 2 = 1
      · rw [if_pos h2, if_pos (by exact h2)]
        rfl
      · rw [if_neg h2, if_neg (by exact h2)]
        rfl
  · rw [if_neg h, if_neg (show ¬((interruptEntry ch s).seq.remaining ≠ 0 ∧ (interruptEntry ch s).seq.active = ch) from h)]
    rfl

theorem matchChannel_eq (ch : Ch) (s : State) :
    matchChannel ch s =
      { s with
        ocf := s.ocf.put ch true
        pinlvl := s.pinlvl.put ch (matchLevel (s.pol.get ch) (s.pinlvl.get ch)) } := rfl

end Sys2Proof.Machine
end

