-- ==== Sys2Proof/Laws/Exec.lean ====
section
/-! SUPPORT. What each operation can do, said once (if it answers `next t`, then …), and what a step can do. Every
proof about a run goes through these and unfolds neither a meaning nor the step. -/

namespace Sys2Proof.Machine

/-- A command that is turned away: the response carries the error, and that is all (60_exceptions.md R165, R166). -/
def refusedAs (e : Err) (s : State) : State := writeResponse { err := e } s

theorem execClkdiv_cases {p : Word32} {s t : State} (h : execClkdiv p s = .next t) :
    t = refusedAs .unsupportedFrequency s ∨
      periodCycles s.params p ∈ s.params.divisors ∧
        t = writeResponse { val := BitVec.ofNat 16 (periodCycles s.params p) } s := by
  unfold execClkdiv at h
  dsimp only at h
  split at h
  · exact .inr ⟨‹_›, (respond_next_iff _ _ _).1 h⟩
  · exact .inl ((raise_next_iff _ _ _).1 h)

theorem execSolve_cases {mode : BitVec 2} {f : Word32} {s t : State} (h : execSolve mode f s = .next t) :
    (signalModeOfBits mode = none ∧ t = refusedAs .badOperand s) ∨
      (∃ m, signalModeOfBits mode = some m ∧ solveFrequency s.params m f.toNat = none ∧
        t = refusedAs .unsupportedFrequency s) ∨
      ∃ m k top, signalModeOfBits mode = some m ∧ solveFrequency s.params m f.toNat = some (k, top) ∧
        t = writeResponse
          { psel := BitVec.ofNat 3 k, presc := BitVec.ofNat 16 (prescalerAt s.params k), top := BitVec.ofNat 16 top }
          s := by
  unfold execSolve at h
  split at h
  · exact .inl ⟨‹_›, (raise_next_iff _ _ _).1 h⟩
  · rename_i m hm
    split at h
    · exact .inr (.inl ⟨m, hm, ‹_›, (raise_next_iff _ _ _).1 h⟩)
    · exact .inr (.inr ⟨m, _, _, hm, ‹_›, (respond_next_iff _ _ _).1 h⟩)

theorem execEncode_cases {top duty : Half} {s t : State} (h : execEncode top duty s = .next t) :
    t = refusedAs .badOperand s ∨
      duty.toNat ≤ 100 ∧ t = writeResponse { val := BitVec.ofNat 16 (encodeDuty top.toNat duty.toNat) } s := by
  unfold execEncode at h
  split at h
  · exact .inl ((raise_next_iff _ _ _).1 h)
  · exact .inr ⟨by omega, (respond_next_iff _ _ _).1 h⟩

theorem execDecode_cases {top c : Half} {s t : State} (h : execDecode top c s = .next t) :
    t = refusedAs .badOperand s ∨
      top ≠ 0 ∧ c.toNat ≤ top.toNat ∧ t = writeResponse { val := BitVec.ofNat 16 (decodeDuty top.toNat c.toNat) } s := by
  unfold execDecode at h
  split at h
  · exact .inl ((raise_next_iff _ _ _).1 h)
  · split at h
    · exact .inl ((raise_next_iff _ _ _).1 h)
    · exact .inr ⟨‹_›, by omega, (respond_next_iff _ _ _).1 h⟩

theorem execConfig_cases {ch : Ch} {mode : BitVec 2} {pol : BitVec 3} {psel : Sel} {top : Half} {run : Bool}
    {s t : State} (h : execConfig ch mode pol psel top run s = .next t) :
    t = refusedAs .badOperand s ∨
      ∃ m p, modeOfBits mode = some m ∧ policyOfBits pol = some p ∧ selectorOk s.params psel = true ∧ top ≠ 0 ∧
        t = writeResponse {} (configWrites ch m p psel top run s) := by
  obtain ⟨u, hu, rfl⟩ := (critical_next_iff _ _ _).1 h
  split at hu
  · rw [(raise_next_iff _ _ _).1 hu]; exact .inl rfl
  · rename_i m hm
    split at hu
    · rw [(raise_next_iff _ _ _).1 hu]; exact .inl rfl
    · rename_i p hp
      split at hu
      · rw [(raise_next_iff _ _ _).1 hu]; exact .inl rfl
      · rename_i hs
        split at hu
        · rw [(raise_next_iff _ _ _).1 hu]; exact .inl rfl
        · refine .inr ⟨m, p, hm, hp, by simpa using hs, ‹_›, ?_⟩
          rw [(respond_next_iff _ _ _).1 hu, configWrites_eq, configWrites_eq]
          rfl

theorem execDisconnect_cases {ch : Ch} {s t : State} (h : execDisconnect ch s = .next t) :
    t = writeResponse {} (unbindPin ch s) := by
  obtain ⟨u, hu, rfl⟩ := (critical_next_iff _ _ _).1 h
  rw [(respond_next_iff _ _ _).1 hu, unbindPin_eq, unbindPin_eq]
  rfl

theorem execPwm_cases {ch : Ch} {mode : BitVec 2} {f : Word32} {duty : Byte} {s t : State}
    (h : execPwm ch mode f duty s = .next t) :
    t = refusedAs .badOperand s ∨ t = refusedAs .unsupportedFrequency s ∨
      (t = writeResponse {} (bypassWrites ch (duty.toNat == 100) s) ∧ (duty.toNat = 0 ∨ duty.toNat = 100)) ∨
      ∃ m k top, signalModeOfBits mode = some m ∧ 1 ≤ duty.toNat ∧ duty.toNat ≤ 99 ∧
        solveFrequency s.params m f.toNat = some (k, top) ∧
        t = writeResponse
          { psel := BitVec.ofNat 3 k, presc := BitVec.ofNat 16 (prescalerAt s.params k), top := BitVec.ofNat 16 top,
            val := BitVec.ofNat 16 (encodeDuty top duty.toNat) }
          (pwmWrites ch m (BitVec.ofNat 3 k) (BitVec.ofNat 16 top) (BitVec.ofNat 16 (encodeDuty top duty.toNat)) s) := by
  obtain ⟨u, hu, rfl⟩ := (critical_next_iff _ _ _).1 h
  dsimp only at hu
  split at hu
  · rw [(raise_next_iff _ _ _).1 hu]; exact .inl rfl
  · rename_i m hm
    split at hu
    · rw [(raise_next_iff _ _ _).1 hu]; exact .inl rfl
    · split at hu
      · rw [(respond_next_iff _ _ _).1 hu]; exact .inr (.inr (.inl ⟨rfl, ‹_›⟩))
      · split at hu
        · rw [(raise_next_iff _ _ _).1 hu]; exact .inr (.inl rfl)
        · rw [(respond_next_iff _ _ _).1 hu]
          exact .inr (.inr (.inr ⟨m, _, _, hm, by omega, by omega, ‹_›, rfl⟩))

theorem execRdduty_cases {ch : Ch} {s t : State} (h : execRdduty ch s = .next t) :
    t = refusedAs .badState s ∨
      s.icr ≠ 0 ∧ (s.ocr.get ch).toNat ≤ s.icr.toNat ∧
        t = writeResponse
          { top := s.icr, val := BitVec.ofNat 16 (decodeDuty s.icr.toNat (s.ocr.get ch).toNat) } s := by
  obtain ⟨u, hu, rfl⟩ := (critical_next_iff _ _ _).1 h
  dsimp only at hu
  split at hu
  · rw [(raise_next_iff _ _ _).1 hu]; exact .inl rfl
  · split at hu
    · rw [(raise_next_iff _ _ _).1 hu]; exact .inl rfl
    · rename_i h1 h2
      rw [(respond_next_iff _ _ _).1 hu]
      exact .inr ⟨h1, by simpa using h2, rfl⟩

/-- What a pin read can be: the level where it is defined, and otherwise a bit drawn anew (10_state.md R39). -/
theorem readLevel_cases (ch : Ch) (s : State) :
    (∃ v, s.pinlvl.get ch = levelOfBool v ∧ readLevel ch s = (v, s)) ∨
      (s.pinlvl.get ch = .X ∧ readLevel ch s = (Config.anyBit s.draws, { s with draws := s.draws + 1 })) := by
  unfold readLevel
  cases h : s.pinlvl.get ch with
  | low => exact .inl ⟨false, rfl, rfl⟩
  | high => exact .inl ⟨true, rfl, rfl⟩
  | X => exact .inr ⟨rfl, rfl⟩

theorem execPinstat_cases {ch : Ch} {s t : State} (h : execPinstat ch s = .next t) :
    ∃ v n, t = writeResponse { val := pinStatus (s.pol.get ch) (s.pindir.get ch) v } { s with draws := n } := by
  obtain ⟨u, hu, rfl⟩ := (critical_next_iff _ _ _).1 h
  dsimp only at hu
  rcases readLevel_cases ch (setGie false s) with ⟨v, -, e⟩ | ⟨-, e⟩
  · rw [e] at hu
    exact ⟨v, s.draws, by rw [(respond_next_iff _ _ _).1 hu]; rfl⟩
  · rw [e] at hu
    exact ⟨_, s.draws + 1, by rw [(respond_next_iff _ _ _).1 hu]; rfl⟩

theorem execTrain_cases {ch : Ch} {n : Half} {d1 d2 : Byte} {s t : State}
    (h : execTrain ch n d1 d2 s = .next t) :
    (∃ e, (e = .badOperand ∨ e = .pulseCountOverflow ∨ e = .badState) ∧ t = refusedAs e s) ∨
      n ≠ 0 ∧ trainDutyOk d1 = true ∧ trainDutyOk d2 = true ∧ 2 * n.toNat ≤ s.params.remMax ∧
        s.cfg.valid = true ∧ s.pol.get ch ≠ .disconnected ∧
        t = writeResponse { val := BitVec.ofNat 16 (2 * n.toNat) } (trainWrites ch n d1 d2 s) := by
  unfold execTrain at h
  split at h
  · exact .inl ⟨_, .inl rfl, (raise_next_iff _ _ _).1 h⟩
  · rename_i h1
    split at h
    · exact .inl ⟨_, .inl rfl, (raise_next_iff _ _ _).1 h⟩
    · rename_i h2
      split at h
      · exact .inl ⟨_, .inr (.inl rfl), (raise_next_iff _ _ _).1 h⟩
      · rename_i h3
        split at h
        · exact .inl ⟨_, .inr (.inr rfl), (raise_next_iff _ _ _).1 h⟩
        · rename_i h4
          split at h
          · exact .inl ⟨_, .inr (.inr rfl), (raise_next_iff _ _ _).1 h⟩
          · rename_i h5
            obtain ⟨u, hu, rfl⟩ := (critical_next_iff _ _ _).1 h
            simp only [not_or, Bool.not_eq_false] at h2
            refine .inr ⟨h1, h2.1, h2.2, by omega, by simpa using h4, h5, ?_⟩
            rw [(respond_next_iff _ _ _).1 hu, trainWrites_eq, trainWrites_eq, preemptOther_eq, preemptOther_eq]
            by_cases hr : s.seq.remaining ≠ 0 ∧ s.seq.active ≠ ch
            · rw [if_pos hr, if_pos (by exact hr)]; rfl
            · rw [if_neg hr, if_neg (by exact hr)]; rfl

theorem execStop_cases {s t : State} (h : execStop s = .next t) : t = writeResponse {} (stopWrites s) := by
  obtain ⟨u, hu, rfl⟩ := (critical_next_iff _ _ _).1 h
  rw [(respond_next_iff _ _ _).1 hu, stopWrites_eq, stopWrites_eq]
  rfl

theorem execPoll_cases {s t : State} (h : execPoll s = .next t) : t = writeResponse { val := s.seq.remaining } s :=
  (respond_next_iff _ _ _).1 h

theorem execGieon_cases {s t : State} (h : execGieon s = .next t) :
    t = writeResponse { val := halfOfBool s.gie } (setGie true s) :=
  (respond_next_iff _ _ _).1 h

theorem execGieoff_cases {s t : State} (h : execGieoff s = .next t) :
    t = writeResponse { val := halfOfBool s.gie } (setGie false s) :=
  (respond_next_iff _ _ _).1 h

/-! ## Every operation answers

No operation faults and none is refused: a command always ends in a response (60_exceptions.md R170). -/

theorem respond_answers (r : Response) (s : State) : ∃ t, respond r s = .next t := ⟨_, rfl⟩

theorem raise_answers (e : Err) (s : State) : ∃ t, raise e s = .next t := ⟨_, rfl⟩

theorem critical_answers {body : State → Result} (h : ∀ s, ∃ t, body s = .next t) (s : State) :
    ∃ t, critical body s = .next t := by
  obtain ⟨u, hu⟩ := h (setGie false s)
  exact ⟨_, (critical_next_iff body s _).2 ⟨u, hu, rfl⟩⟩

theorem exec_answers (i : Instr) (s : State) : ∃ t, exec i s = .next t := by
  cases i with
  | clkdiv p => simp only [exec, execClkdiv]; split <;> exact ⟨_, rfl⟩
  | solve mode f => simp only [exec, execSolve]; repeat' split <;> first | exact ⟨_, rfl⟩ | skip
  | encode top duty => simp only [exec, execEncode]; split <;> exact ⟨_, rfl⟩
  | decode top c => simp only [exec, execDecode]; repeat' split <;> first | exact ⟨_, rfl⟩ | skip
  | config ch mode pol psel top run =>
    simp only [exec, execConfig]
    refine critical_answers (fun s => ?_) s
    repeat' split <;> first | exact ⟨_, rfl⟩ | skip
  | disconnect ch => exact critical_answers (fun s => respond_answers _ _) s
  | pwm ch mode f duty =>
    simp only [exec, execPwm]
    refine critical_answers (fun s => ?_) s
    repeat' split <;> first | exact ⟨_, rfl⟩ | skip
  | rdduty ch =>
    simp only [exec, execRdduty]
    refine critical_answers (fun s => ?_) s
    repeat' split <;> first | exact ⟨_, rfl⟩ | skip
  | pinstat ch => exact critical_answers (fun s => respond_answers _ _) s
  | train ch n d1 d2 =>
    simp only [exec, execTrain]
    repeat' split <;> first | exact ⟨_, rfl⟩ | skip
  | stop => exact critical_answers (fun s => respond_answers _ _) s
  | poll => exact respond_answers _ _
  | gieon => exact respond_answers _ _
  | gieoff => exact respond_answers _ _

/-! ## Moves and steps -/

theorem hostCommand_answers (cmd : Word) (s : State) : ∃ t, hostCommand cmd s = .next t := by
  unfold hostCommand
  split
  · exact exec_answers _ _
  · exact raise_answers _ _

/-- An enabled move is made: nothing an agent does can fault or be refused. -/
theorem performMove_answers (e : Event) (s : State) : ∃ t, performMove e s = .next t := by
  cases e with
  | host cmd => exact hostCommand_answers cmd s
  | busByte b =>
    simp only [performMove, receiveByte]
    split
    · exact ⟨_, rfl⟩
    · exact hostCommand_answers _ _
  | busRead => exact ⟨_, rfl⟩
  | compareMatch ch => exact ⟨_, rfl⟩
  | service ch => exact ⟨_, rfl⟩

theorem hostCommand_cases {cmd : Word} {s t : State} (h : hostCommand cmd s = .next t) :
    (∃ i, decode cmd = .ok i ∧ exec i s = .next t) ∨
      (∃ e, decode cmd = .error e ∧ t = refusedAs .illegalCommand s) := by
  unfold hostCommand at h
  split at h
  · exact .inl ⟨_, ‹_›, h⟩
  · exact .inr ⟨_, ‹_›, (raise_next_iff _ _ _).1 h⟩

/-! ## A byte of a response (20_memory.md R54) -/

theorem responseBytes_some {s : State} {w : Word} (ht : s.tx = []) (hr : s.rsp = some w) :
    responseBytes s = bytesOfWord w := by
  simp [responseBytes, ht, hr]

theorem responseBytes_latched {s : State} (h : s.tx ≠ []) : responseBytes s = s.tx := if_neg h

/-- There is a byte to take exactly when a word is being carried or the port holds one. -/
theorem responseBytes_ne_nil_iff (s : State) : responseBytes s ≠ [] ↔ s.tx ≠ [] ∨ s.rsp ≠ none := by
  unfold responseBytes
  by_cases h : s.tx = []
  · cases hr : s.rsp <;> simp [h, bytesOfWord]
  · simp [h]

/-- A byte that is not the last of its word. -/
theorem sendByte_partial {s : State} {b : Byte} {rest : List Byte} (h : responseBytes s = b :: rest)
    (hl : s.hostRx.length < 7) : sendByte s = { s with tx := rest, hostRx := s.hostRx ++ [b] } := by
  unfold sendByte
  rw [h]
  exact if_pos hl

/-- The byte that completes a word: the host has the response. -/
theorem sendByte_last {s : State} {b : Byte} {rest : List Byte} (h : responseBytes s = b :: rest)
    (hl : ¬s.hostRx.length < 7) :
    sendByte s = { s with tx := rest, hostRx := [], hostRsp := some (wordOfBytes (s.hostRx ++ [b])) } := by
  unfold sendByte
  rw [h]
  exact if_neg hl

/-- What carrying a byte writes: the narrower bus's own fields, nothing else. -/
theorem sendByte_frame (s : State) :
    ∃ x h r, sendByte s = { s with tx := x, hostRx := h, hostRsp := r } := by
  cases hb : responseBytes s with
  | nil => exact ⟨s.tx, s.hostRx, s.hostRsp, by rw [sendByte, hb]⟩
  | cons b rest =>
    by_cases hl : s.hostRx.length < 7
    · exact ⟨_, _, _, sendByte_partial hb hl⟩
    · exact ⟨_, _, _, sendByte_last hb hl⟩

/-! ## What a step can do -/

/-- What a step can do, said once: wait with nothing scheduled, issue a whole command word, receive a byte that does
not complete one, receive the byte that does, take an enabled match, take an enabled service, carry one byte of a
response to the host. -/
theorem step_cases {s t : State} (h : step s = .next t) :
    (s.schedule = [] ∧ t = s) ∨
      (∃ cmd rest, s.schedule = .host cmd :: rest ∧ hostCommand cmd { s with schedule := rest } = .next t) ∨
      (∃ b rest, s.schedule = .busByte b :: rest ∧ s.rx.length < 7 ∧
        t = { s with schedule := rest, rx := s.rx ++ [b] }) ∨
      (∃ b rest, s.schedule = .busByte b :: rest ∧ ¬s.rx.length < 7 ∧
        hostCommand (wordOfBytes (s.rx ++ [b])) { s with schedule := rest, rx := [] } = .next t) ∨
      (∃ ch rest, s.schedule = .compareMatch ch :: rest ∧ s.tclk ≠ 0 ∧
        t = matchChannel ch { s with schedule := rest }) ∨
      (∃ ch rest, s.schedule = .service ch :: rest ∧ serviceEnabled ch s = true ∧
        t = serviceChannel ch { s with schedule := rest }) ∨
      (∃ rest, s.schedule = .busRead :: rest ∧ responseBytes s ≠ [] ∧ t = sendByte { s with schedule := rest }) := by
  unfold step at h
  split at h
  · rename_i e
    cases h
    exact .inl ⟨e, rfl⟩
  · rename_i e rest hs
    unfold takeMove at h
    split at h
    · rename_i hen
      cases e with
      | host cmd => exact .inr (.inl ⟨cmd, rest, hs, h⟩)
      | busByte b =>
        unfold performMove receiveByte at h
        dsimp only at h
        split at h
        · rename_i hl
          cases h
          exact .inr (.inr (.inl ⟨b, rest, hs, hl, rfl⟩))
        · rename_i hl
          exact .inr (.inr (.inr (.inl ⟨b, rest, hs, hl, h⟩)))
      | compareMatch ch =>
        cases h
        have h0 : s.tclk ≠ 0 := by simpa [moveEnabled, matchEnabled] using hen
        exact .inr (.inr (.inr (.inr (.inl ⟨ch, rest, hs, h0, rfl⟩))))
      | service ch =>
        cases h
        have h0 : serviceEnabled ch s = true := hen
        exact .inr (.inr (.inr (.inr (.inr (.inl ⟨ch, rest, hs, h0, rfl⟩)))))
      | busRead =>
        cases h
        have h0 : responseBytes s ≠ [] := of_decide_eq_true hen
        exact .inr (.inr (.inr (.inr (.inr (.inr ⟨rest, hs, h0, rfl⟩)))))
    · cases h

/-- An enabled service is unmasked, enabled and pending. -/
theorem serviceEnabled_requested {ch : Ch} {s : State} (h : serviceEnabled ch s = true) :
    s.gie = true ∧ s.ocie.get ch = true ∧ s.ocf.get ch = true := by
  cases ch <;> simp [serviceEnabled, irqRequested, and_assoc] at h <;> simp [h]

/-- `step` on a scheduled move. -/
theorem step_cons {s : State} {e : Event} {rest : List Event} (h : s.schedule = e :: rest) :
    step s = takeMove e { s with schedule := rest } := by
  unfold step
  rw [h]

theorem takeMove_enabled {e : Event} {s : State} (h : moveEnabled e s = true) : takeMove e s = performMove e s := by
  rw [takeMove, if_pos h]

end Sys2Proof.Machine
end

