-- ==== Sys2Proof/Laws/Operands.lean ====
section
/-! SUPPORT. The operand codes read back, and the small facts of the operands' ranges. -/

namespace Sys2Proof.Machine

@[simp] theorem modeOfBits_code (m : Mode) : modeOfBits (modeCode m) = some m := by cases m <;> rfl

@[simp] theorem signalModeOfBits_code (m : SignalMode) : signalModeOfBits (modeCode (timerMode m)) = some m := by
  cases m <;> rfl

@[simp] theorem policyOfBits_code (p : Policy) : policyOfBits (policyCode p) = some p := by cases p <;> rfl

theorem modeOfBits_none_iff (b : BitVec 2) : modeOfBits b = none ↔ b.toNat = 3 := by
  revert b
  decide

theorem signalModeOfBits_none_iff (b : BitVec 2) : signalModeOfBits b = none ↔ 2 ≤ b.toNat := by
  revert b
  decide

theorem policyOfBits_none_iff (b : BitVec 3) : policyOfBits b = none ↔ 5 < b.toNat := by
  revert b
  decide

theorem trainDutyOk_iff (d : Byte) : trainDutyOk d = true ↔ 1 ≤ d.toNat ∧ d.toNat ≤ 99 := by
  simp only [trainDutyOk, Bool.and_eq_true, decide_eq_true_eq]
  omega

theorem selectorOk_iff (c : Cfg) (k : Sel) :
    selectorOk c k = true ↔ 1 ≤ k.toNat ∧ k.toNat ≤ c.prescalers.length := by
  simp [selectorOk]

theorem half_ne_zero_iff (v : Half) : v ≠ 0 ↔ 1 ≤ v.toNat := by
  rw [ne_eq, BitVec.toNat_eq]
  simp
  omega

theorem toNat_half {n : Nat} (h : n ≤ 65535) : (BitVec.ofNat 16 n : Half).toNat = n := by
  rw [BitVec.toNat_ofNat]
  exact Nat.mod_eq_of_lt (by omega)

theorem toNat_sel {n : Nat} (h : n ≤ 7) : (BitVec.ofNat 3 n : Sel).toNat = n := by
  rw [BitVec.toNat_ofNat]
  exact Nat.mod_eq_of_lt (by omega)

theorem toNat_half_pred {r : Half} (h : r ≠ 0) : (r - 1).toNat + 1 = r.toNat := by
  have := (half_ne_zero_iff r).1 h
  bv_omega

/-- A compare value never exceeds its top (40_calc.md R97). -/
theorem encodeDuty_le {top duty : Nat} (h : duty ≤ 100) : encodeDuty top duty ≤ top := by
  rw [encodeDuty_eq]
  have := Nat.mul_le_mul_right top h
  omega

/-- A decoded duty cycle is at most 100 (R100). -/
theorem decodeDuty_le {top c : Nat} (h : c ≤ top) : decodeDuty top c ≤ 100 := by
  unfold decodeDuty
  exact Nat.div_le_of_le_mul (by rw [Nat.mul_comm top]; omega)

end Sys2Proof.Machine
end

