-- ==== Sys2Proof/Laws/PerInstr.lean ====
section
/-! SUPPORT. One fact of every operation as syntax: its word is a word of its own row of 30_encoding.md R72, and of no
other row. -/

namespace Sys2Proof.Laws.EncodeRow

open Sys2Proof

/-- The word of `i` matches under the mask of its own row, and under no other row's (R72, R73). -/
def Statement (i : Instr) : Prop :=
  ∀ o : Opcode, encode i &&& opcodeMask o = opcodeMatch o ↔ o = opcodeOfInstr i

theorem of_row (i : Instr) : Statement i := by
  intro o
  rw [rowMatch_iff, fieldOp_encode]
  constructor
  · rintro ⟨h, -⟩
    have h2 := congrArg opcodeOf h
    rw [opcodeOf_code, opcodeOf_code] at h2
    exact (Option.some.inj h2).symm
  · rintro rfl
    exact ⟨rfl, unusedZero_encode i⟩

theorem clkdiv (periodUs : Word32) : Statement (.clkdiv periodUs) := of_row _
theorem solve (mode : BitVec 2) (f : Word32) : Statement (.solve mode f) := of_row _
theorem encode (top duty : Half) : Statement (.encode top duty) := of_row _
theorem decode (top compare : Half) : Statement (.decode top compare) := of_row _
theorem config (ch : Ch) (mode : BitVec 2) (pol : BitVec 3) (psel : Sel) (top : Half) (run : Bool) : Statement (.config ch mode pol psel top run) := of_row _
theorem disconnect (ch : Ch) : Statement (.disconnect ch) := of_row _
theorem pwm (ch : Ch) (mode : BitVec 2) (f : Word32) (duty : Byte) : Statement (.pwm ch mode f duty) := of_row _
theorem rdduty (ch : Ch) : Statement (.rdduty ch) := of_row _
theorem pinstat (ch : Ch) : Statement (.pinstat ch) := of_row _
theorem train (ch : Ch) (n : Half) (d1 d2 : Byte) : Statement (.train ch n d1 d2) := of_row _
theorem stop : Statement .stop := of_row _
theorem poll : Statement .poll := of_row _
theorem gieon : Statement .gieon := of_row _
theorem gieoff : Statement .gieoff := of_row _

end Sys2Proof.Laws.EncodeRow
end

