-- ==== Sys2Proof/Laws/Solver.lean ====
section
/-! SUPPORT. The solver's search against the relation `SolvesTo` that claims are made in (40_calc.md R88 to R92), and
the order of an admitted list of prescalers. -/

namespace Sys2Proof.Machine

theorem solveDivisor_pos (m : SignalMode) {f p : Nat} (hp : 0 < p) (hf : 0 < f) : 0 < solveDivisor m f p := by
  have h := Nat.mul_pos hp hf
  cases m with
  | fast => exact h
  | phaseCorrect =>
    simp only [solveDivisor, Nat.mul_assoc]
    omega

theorem solveDivisor_mono (m : SignalMode) (f : Nat) {p q : Nat} (h : p ≤ q) :
    solveDivisor m f p ≤ solveDivisor m f q := by
  have := Nat.mul_le_mul_right f h
  cases m <;> simp only [solveDivisor, Nat.mul_assoc] <;> omega

/-- The relation's inequalities say that `rnd` gives the mode's count of `top`. -/
theorem topIsNearest_iff {clk f p top : Nat} {m : SignalMode} (hp : 0 < p) (hf : 0 < f) :
    topIsNearest clk f p top m ↔ rnd clk (solveDivisor m f p) = countOfTop m top := by
  have h0 := solveDivisor_pos m hp hf
  cases m with
  | fast =>
    have h1 := le_rnd_iff (a := clk) (q := top + 1) h0
    have h2 := rnd_lt_iff (a := clk) (q := top + 2) h0
    simp only [solveDivisor] at h1 h2
    simp only [topIsNearest, solveDivisor, countOfTop]
    rw [← h1, ← h2]
    omega
  | phaseCorrect =>
    have h1 := le_rnd_iff (a := clk) (q := top) h0
    have h2 := rnd_lt_iff (a := clk) (q := top + 1) h0
    simp only [solveDivisor] at h1 h2
    simp only [topIsNearest, solveDivisor, countOfTop]
    rw [← h1, ← h2]
    omega

theorem solveCandidate_iff {clk f p top : Nat} {m : SignalMode} (hp : 0 < p) (hf : 0 < f) :
    solveCandidate clk m f p = some top ↔ topIsNearest clk f p top m ∧ topInRange top m := by
  rw [solveCandidate_some_iff, topIsNearest_iff hp hf]
  cases m <;> simp [countOfTop, topInRange]

theorem solveCandidate_none_iff_not_serves {clk f p : Nat} {m : SignalMode} (hp : 0 < p) (hf : 0 < f) :
    solveCandidate clk m f p = none ↔ ¬prescalerServes clk m f p := by
  unfold prescalerServes
  simp only [← solveCandidate_iff hp hf]
  cases solveCandidate clk m f p <;> simp

theorem prescaler_pos_of_getElem? (c : Cfg) {i q : Nat} (h : c.prescalers[i]? = some q) : 0 < q := by
  have := admitted_prescaler_range c q (List.mem_of_getElem? h)
  omega

/-- The search answers exactly what the relation says. -/
theorem solveFrequency_some_iff (c : Cfg) (m : SignalMode) (f k top : Nat) :
    solveFrequency c m f = some (k, top) ↔ SolvesTo c m f k (prescalerAt c k) top := by
  constructor
  · intro h
    unfold solveFrequency at h
    split at h
    · cases h
    · split at h
      · cases h
      · rename_i h0 h1
        have hf : 0 < f := by omega
        obtain ⟨n, q, rfl, h2, h3, h4⟩ := (solveSearch_some_iff _ _ _ _ _ _ _).1 h
        have hq : prescalerAt c (1 + n) = q := by
          simp [prescalerAt, List.getD_eq_getElem?_getD, h2]
        rw [hq]
        obtain ⟨h5, h6⟩ := (solveCandidate_iff (prescaler_pos_of_getElem? c h2) hf).1 h3
        refine ⟨hf, by omega, by omega, by rw [Nat.add_sub_cancel_left]; exact h2, h5, h6, ?_⟩
        intro i r hi hr
        exact (solveCandidate_none_iff_not_serves (prescaler_pos_of_getElem? c hr) hf).1 (h4 i r (by omega) hr)
  · intro h
    have hf := h.frequencyPositive
    have h1 := h.frequencyBelowHalf
    have h2 := h.selectorPositive
    unfold solveFrequency
    rw [if_neg (by omega), if_neg (by omega), solveSearch_some_iff]
    refine ⟨k - 1, prescalerAt c k, by omega, h.prescaler,
      (solveCandidate_iff (prescaler_pos_of_getElem? c h.prescaler) hf).2 ⟨h.nearest, h.inRange⟩, ?_⟩
    intro i q hi hq
    exact (solveCandidate_none_iff_not_serves (prescaler_pos_of_getElem? c hq) hf).2 (h.first i q hi hq)

/-- The prescaler of an answer is the element its selector names. -/
theorem prescalerAt_of_solvesTo {c : Cfg} {m : SignalMode} {f k p top : Nat} (h : SolvesTo c m f k p top) :
    prescalerAt c k = p := by
  simp [prescalerAt, List.getD_eq_getElem?_getD, h.prescaler]

theorem solveFrequency_none_iff (c : Cfg) (m : SignalMode) (f : Nat) :
    solveFrequency c m f = none ↔ Unsolvable c m f := by
  unfold Unsolvable solveFrequency
  by_cases h0 : f = 0
  · simp [h0]
  · by_cases h1 : c.clkHz < 2 * f
    · simp [h1]
    · have hf : 0 < f := by omega
      have hp : ∀ p, p ∈ c.prescalers → 0 < p := fun p h => by
        have := admitted_prescaler_range c p h
        omega
      rw [if_neg h0, if_neg (by omega), solveSearch_none_iff]
      simp only [h0, h1, false_or]
      constructor
      · exact fun h p hm => (solveCandidate_none_iff_not_serves (hp p hm) hf).1 (h p hm)
      · exact fun h p hm => (solveCandidate_none_iff_not_serves (hp p hm) hf).2 (h p hm)

/-! ## The order of the prescalers (00_scope.md R6) -/

/-- Neighbours of an admitted list rise, by a factor of at most 32768. -/
theorem prescalersFrom_next {p : Nat} {l : List Nat} (h : prescalersFrom p l = true) {n a b : Nat}
    (ha : (p :: l)[n]? = some a) (hb : (p :: l)[n + 1]? = some b) : a < b ∧ b ≤ 32768 * a := by
  induction l generalizing p n with
  | nil => simp at hb
  | cons q rest ih =>
    obtain ⟨h1, h2, -, h4⟩ := prescalersFrom_cons.1 h
    cases n with
    | zero =>
      simp only [List.getElem?_cons_zero, List.getElem?_cons_succ, Option.some.injEq] at ha hb
      subst ha hb
      exact ⟨h1, h2⟩
    | succ n => exact ih h4 (n := n) ha hb

/-- An earlier element of an admitted list is smaller. -/
theorem prescalersFrom_lt {p : Nat} {l : List Nat} (h : prescalersFrom p l = true) {n k a b : Nat} (hnk : n < k)
    (ha : (p :: l)[n]? = some a) (hb : (p :: l)[k]? = some b) : a < b := by
  induction l generalizing p n k with
  | nil =>
    cases k with
    | zero => omega
    | succ k => simp at hb
  | cons q rest ih =>
    obtain ⟨-, -, -, h4⟩ := prescalersFrom_cons.1 h
    cases k with
    | zero => omega
    | succ k =>
      cases n with
      | zero =>
        simp only [List.getElem?_cons_zero, Option.some.injEq] at ha
        subst ha
        exact (prescalersFrom_mem h b (List.mem_of_getElem? hb)).1
      | succ n => exact ih h4 (n := n) (k := k) (by omega) ha hb

end Sys2Proof.Machine
end

