-- ==== Sys2Proof/Tests/Slice0.lean ====
section
/-! SUPPORT. Tests. Every expected value is the spec's: spec/95_test_vectors.md section 2 (the section is named at each
group), or the rule named. Then the witnesses: for every obligation with hypotheses, operands and a state that meet
them all together, at the boundary of each clause's range. -/

namespace Sys2Proof.Tests

open Sys2Proof Sys2Proof.Machine

/-! ## Helpers -/

/-- What a result shows through `f`, if it is a next state. -/
def view {α : Type} (f : State → α) : Result → Option α
  | .next t => some (f t)
  | .fault _ => none
  | .refused _ => none

/-- The response word of a result. -/
def rspOf (r : Result) : Option Word := (view State.rsp r).getD none

/-- Why a result is refused. -/
def refusalOf : Result → Option Refusal
  | .next _ => none
  | .fault _ => none
  | .refused r => some r

/-- The state with these moves scheduled. -/
def sched (l : List Event) (s : State) : State := { s with schedule := l }

/-- Reset at 8 MHz. -/
def reset8MHz : State := State.resetOf Cfg.default8MHz (ResetContents.least Cfg.default8MHz)

/-- Reset with `REM_BITS = 2` (00_scope.md R6). -/
def resetRem2 : State :=
  let c : Cfg := ⟨{ RawCfg.defaultAt 1000000 with remBits := 2 }, by decide⟩
  State.resetOf c (ResetContents.least c)

/-- Section 2.5's start: reset, then `CONFIG A, fast, toggle, 1, 127, hold`. -/
def ready : State :=
  { State.reset with
    cfg := { valid := true, psel := 1, top := 127, mode := .fast }
    icr := 127
    pol := { a := .toggle, b := .disconnected }
    pindir := { a := true, b := false } }

/-- Section 2.6's train on A with `r` services owed, enabled and pending. -/
def serving (r : Half) : State :=
  { ready with
    seq := { value0 := 42, value1 := 84, remaining := r, active := .A }
    tclk := 1
    gie := true
    ocie := { a := true, b := false }
    ocf := { a := true, b := false }
    ocr := { a := 84, b := 0 }
    pinlvl := { a := .high, b := .X } }

/-! ## Well-formedness: an ill-formed operation for each check (30_encoding.md R74) -/

theorem test_wf_solve_ctc : (Instr.solve 2 1000).wellFormed Cfg.default1MHz = false := by decide
theorem test_wf_solve_mode3 : (Instr.solve 3 1000).wellFormed Cfg.default1MHz = false := by decide
theorem test_wf_encode_duty : (Instr.encode 1000 101).wellFormed Cfg.default1MHz = false := by decide
theorem test_wf_config_mode : (Instr.config .A 3 1 1 999 false).wellFormed Cfg.default1MHz = false := by decide
theorem test_wf_config_pol : (Instr.config .A 0 6 1 999 false).wellFormed Cfg.default1MHz = false := by decide
theorem test_wf_config_psel0 : (Instr.config .A 0 1 0 999 false).wellFormed Cfg.default1MHz = false := by decide
theorem test_wf_config_psel6 : (Instr.config .A 0 1 6 999 false).wellFormed Cfg.default1MHz = false := by decide
theorem test_wf_pwm_ctc : (Instr.pwm .A 2 1000 30).wellFormed Cfg.default1MHz = false := by decide
theorem test_wf_pwm_duty : (Instr.pwm .A 0 1000 101).wellFormed Cfg.default1MHz = false := by decide
theorem test_wf_train_d1 : (Instr.train .A 3 101 66).wellFormed Cfg.default1MHz = false := by decide
theorem test_wf_train_d2 : (Instr.train .A 3 33 101).wellFormed Cfg.default1MHz = false := by decide
theorem test_wf_config_ctc : (Instr.config .B 2 5 5 1 true).wellFormed Cfg.default1MHz = true := by decide

/-- 60_exceptions.md R168: another clock is no machine. -/
theorem test_cfg_clock :
    Cfg.make (RawCfg.defaultAt 16000000) = .error .unsupportedClockFrequency ∧
      Cfg.make { RawCfg.defaultAt 1000000 with prescalers := [1, 65535] } = .error .badParameter ∧
      Cfg.make (RawCfg.defaultAt 8000000) = .ok Cfg.default8MHz := by
  refine ⟨rfl, rfl, rfl⟩

/-! ## Decoding: one word of every operation, as sections 2.1 to 2.5 write it -/

theorem test_decode_clkdiv : decode 0x01000000FFFFFFFF = .ok (.clkdiv 4294967295) := by rfl
theorem test_decode_solve : decode 0x0220000000000064 = .ok (.solve 1 100) := by rfl
theorem test_decode_encode : decode 0x03000000FFFF0063 = .ok (.encode 65535 99) := by rfl
theorem test_decode_decode : decode 0x0400000003E8012C = .ok (.decode 1000 300) := by rfl
theorem test_decode_config : decode 0x10C5C00000001E83 = .ok (.config .B 2 1 3 7811 true) := by rfl
theorem test_decode_disconnect : decode 0x1180000000000000 = .ok (.disconnect .B) := by rfl
theorem test_decode_pwm : decode 0x120000640007A121 = .ok (.pwm .A 0 500001 100) := by rfl
theorem test_decode_rdduty : decode 0x1380000000000000 = .ok (.rdduty .B) := by rfl
theorem test_decode_pinstat : decode 0x1480000000000000 = .ok (.pinstat .B) := by rfl
theorem test_decode_train : decode 0x2080000042218000 = .ok (.train .B 32768 33 66) := by rfl
theorem test_decode_stop : decode 0x2100000000000000 = .ok .stop := by rfl
theorem test_decode_poll : decode 0x2200000000000000 = .ok .poll := by rfl
theorem test_decode_gieon : decode 0x3000000000000000 = .ok .gieon := by rfl
theorem test_decode_gieoff : decode 0x3100000000000000 = .ok .gieoff := by rfl

/-- Section 2.7. -/
theorem test_decode_illegal :
    decode 0x0000000000000000 = .error (.unassignedOp 0) ∧
      decode 0xFF00000000000000 = .error (.unassignedOp 255) ∧
      decode 0x2200000000000001 = .error .unusedFieldNotZero ∧
      decode 0x2180000000000000 = .error .unusedFieldNotZero ∧
      decode 0x0200010000000064 = .error .reservedNotZero ∧
      decode 0x1200401E000003E8 = .error .unusedFieldNotZero := by
  refine ⟨rfl, rfl, rfl, rfl, rfl, rfl⟩

/-- 20_memory.md R54: the least significant byte comes first. -/
theorem test_decode_bytes :
    decodeBytes [0x1E, 0x00, 0xE8, 0x03, 0x00, 0x00, 0x00, 0x03] = .ok (.encode 1000 30) ∧
      decodeTableWord 64 0x0300000003E8001E = some (.encode 1000 30) := by
  refine ⟨rfl, rfl⟩

/-! ## CLKDIV (2.1), SOLVE (2.2), ENCODE and DECODE (2.3) -/

theorem test_clkdiv_8MHz : rspOf (exec (.clkdiv 16) reset8MHz) = some 0x0000000000000080 := by decide
theorem test_clkdiv_no_wrap : rspOf (exec (.clkdiv 4294967295) reset8MHz) = some 0x0100000000000000 := by decide
theorem test_solve_fast_1 : rspOf (exec (.solve 0 1) reset8MHz) = some 0x000401007A110000 := by decide
theorem test_solve_phase_7 : rspOf (exec (.solve 1 7) State.reset) = some 0x0002000822E10000 := by decide
theorem test_encode_tie : rspOf (exec (.encode 3 50) State.reset) = some 0x0000000000000002 := by decide
theorem test_encode_top : rspOf (exec (.encode 65535 100) State.reset) = some 0x000000000000FFFF := by decide
theorem test_decode_truncates : rspOf (exec (.decode 65535 655) State.reset) = some 0x0000000000000000 := by decide
theorem test_decode_above_top : rspOf (exec (.decode 1000 1001) State.reset) = some 0x0400000000000000 := by decide

/-! ## CONFIG, DISCONNECT, PWM, RDDUTY, PINSTAT (2.4) -/

theorem test_config_ctc :
    view (fun t => (t.tmode, t.icr, t.tclk, t.pol.b, t.pindir.b)) (exec (.config .B 2 1 3 7811 true) State.reset) =
      some (.ctc, 7811, 3, .toggle, true) := by decide
theorem test_config_disc :
    view (fun t => (t.cfg.top, t.pol.a, t.pindir.a)) (exec (.config .A 0 0 1 999 false) State.reset) =
      some (999, .disconnected, false) := by decide
theorem test_disconnect_bound :
    view (fun t => (t.pol.a, t.pinlvl.a, t.pindir.a)) (exec (.disconnect .A) (serving 6)) =
      some (.disconnected, .X, true) := by decide
theorem test_disconnect_static :
    view (fun t => t.pinlvl.a)
      (exec (.disconnect .A) { State.reset with pinlvl := { a := .high, b := .X } }) = some .high := by decide
theorem test_pwm_phase :
    view (fun t => (t.rsp, t.ocr.b, t.tmode, t.tclk)) (exec (.pwm .B 1 1000 30) State.reset) =
      some (some 0x0001000101F40096, 150, .phaseCorrect, 1) := by decide
theorem test_pwm_bypass :
    view (fun t => (t.rsp, t.pol.a, t.pindir.a, t.pinlvl.a, t.tclk)) (exec (.pwm .A 0 500001 100) State.reset) =
      some (some 0, .disconnected, true, .high, 0) := by decide
theorem test_rdduty :
    rspOf (exec (.rdduty .A) { State.reset with icr := 999, ocr := { a := 300, b := 0 } }) =
      some 0x0000000003E7001E := by decide
theorem test_rdduty_bad_state :
    rspOf (exec (.rdduty .A) { State.reset with icr := 199, ocr := { a := 300, b := 0 } }) =
      some 0x0600000000000000 := by decide
theorem test_pinstat_low :
    rspOf (exec (.pinstat .A) { State.reset with pindir := { a := true, b := false }, pinlvl := { a := .low, b := .X } }) =
      some 0x0000000000000002 := by decide
theorem test_pinstat_high :
    rspOf (exec (.pinstat .A) { ready with pinlvl := { a := .high, b := .X } }) = some 0x0000000000000007 := by decide

/-! ## TRAIN, STOP, POLL, GIEON, GIEOFF (2.5) -/

theorem test_train :
    view (fun t => (t.seq, t.ocr.a, t.ocie.a, t.tclk, t.rsp)) (exec (.train .A 3 33 66) ready) =
      some ({ value0 := 42, value1 := 84, remaining := 6, active := .A }, 42, true, 1, some 0x0000000000000006) := by
  decide
theorem test_train_overflow_first :
    rspOf (exec (.train .B 32768 33 66) ready) = some 0x0300000000000000 ∧
      rspOf (exec (.train .A 3 33 66) resetRem2) = some 0x0300000000000000 := by decide
theorem test_stop :
    view (fun t => (t.seq.remaining, t.seq.value1, t.ocie.a, t.tclk, t.pol.a, t.pinlvl.a, t.ocf.a))
      (exec .stop (serving 6)) = some (0, 84, false, 0, .disconnected, .low, true) := by rfl
theorem test_stop_keeps_pwm :
    view (fun t => (t.tclk, t.pol.b, t.pinlvl.b))
      (exec .stop { State.reset with tclk := 1, pol := { a := .disconnected, b := .nonInverting } }) =
      some (0, .nonInverting, .X) := by decide
theorem test_poll : rspOf (exec .poll (serving 6)) = some 0x0000000000000006 := by decide
theorem test_gieon : view (fun t => (t.gie, t.rsp)) (exec .gieon State.reset) = some (true, some 0) := by decide
theorem test_gieoff : view (fun t => (t.gie, t.rsp)) (exec .gieoff (serving 6)) = some (false, some 1) := by decide

/-! ## MATCH and Service (2.6), the step, the narrow bus -/

theorem test_match_toggle :
    view (fun t => (t.ocf.a, t.pinlvl.a)) (step (sched [.compareMatch .A] (serving 6))) = some (true, .low) := by decide
theorem test_match_stopped :
    refusalOf (step (sched [.compareMatch .B] State.reset)) = some (.notEnabled (.compareMatch .B)) := by decide
theorem test_service_alternates :
    view (fun t => (t.ocf.a, t.seq.remaining, t.ocr.a)) (step (sched [.service .A] (serving 5))) =
      some (false, 4, 42) := by decide
theorem test_service_last :
    view (fun t => (t.seq.remaining, t.ocie.a, t.tclk, t.pol.a, t.pinlvl.a, t.ocr.a, t.gie))
      (step (sched [.service .A] (serving 1))) = some (0, false, 0, .disconnected, .low, 84, true) := by rfl
theorem test_first_command :
    rspOf (step (State.reset.withFetchWord 64 0x0100000000000080)) = some 0x0000000000000080 := by decide
theorem test_illegal_word :
    rspOf (step (sched [.host 0x0280000000000064] State.reset)) = some 0x0500000000000000 := by decide
/-- 10_state.md R23, R45: the selector and the top a reset leaves are legal ones. -/
theorem test_reset_legal :
    selectorLegal State.reset.params State.reset.cfg.psel = true ∧ State.reset.cfg.top ≠ 0 ∧
      State.reset.cfg.valid = false := by decide

/-- 20_memory.md R54: the response's least significant byte is carried first; with none there is nothing to carry. -/
theorem test_bus_read_first :
    view (fun t => (t.hostRx, t.tx.length, t.hostRsp))
      (step (sched [.busRead] { State.reset with rsp := some 0x0001000100010000 })) = some ([0x00], 7, none) ∧
    view (fun t => t.hostRx) (step (sched [.busRead] { State.reset with rsp := some 0x00000000000003E7 })) =
      some [0xE7] ∧
    refusalOf (step (sched [.busRead] State.reset)) = some (.notEnabled .busRead) := by decide
theorem test_bus_read_last :
    view (fun t => (t.hostRx, t.tx, t.hostRsp))
      (step (sched [.busRead]
        { State.reset with tx := [0x03], hostRx := [0x1E, 0x00, 0xE8, 0x03, 0x00, 0x00, 0x00] })) =
      some ([], [], some 0x0300000003E8001E) := by decide
theorem test_empty_schedule : view State.schedule (step State.reset) = some [] := by decide

/-- 30_encoding.md R75 and R76. -/
theorem test_asm :
    asm (.config .A 0 4 1 999 true) = "CONFIG A, fast, noninv, 1, 999, run" ∧
      asm (.train .A 3 33 66) = "TRAIN A, 3, 33, 66" ∧ asm .stop = "STOP" := by decide

/-! ## Witnesses

One for each obligation with hypotheses, in the obligations' order; the clauses of an obligation are the conjuncts, each
at a boundary of its range. -/

/-- The solver's answer for a frequency, as the relation. -/
theorem solvesTo_of {c : Cfg} {m : SignalMode} {f k top p : Nat} (h : solveFrequency c m f = some (k, top))
    (hp : prescalerAt c k = p) : SolvesTo c m f k p top := hp ▸ (solveFrequency_some_iff c m f k top).1 h

theorem unsolvable_of {c : Cfg} {m : SignalMode} {f : Nat} (h : solveFrequency c m f = none) : Unsolvable c m f :=
  (solveFrequency_none_iff c m f).1 h

/-- E1 of 95_test_vectors.md, the highest frequency at 1 MHz. -/
theorem witness_solvesTo_fast : SolvesTo Cfg.default1MHz .fast 500000 1 1 1 := solvesTo_of (by decide) (by decide)

/-- The lowest frequency at 8 MHz. -/
theorem witness_solvesTo_phase : SolvesTo Cfg.default8MHz .phaseCorrect 1 3 64 62500 :=
  solvesTo_of (by decide) (by decide)

/-- A top of at least 100. -/
theorem witness_solvesTo_1000 : SolvesTo Cfg.default1MHz .fast 1000 1 1 999 := solvesTo_of (by decide) (by decide)

theorem witness_unsolvable :
    Unsolvable Cfg.default1MHz .fast 0 ∧ Unsolvable Cfg.default1MHz .phaseCorrect 500001 :=
  ⟨unsolvable_of (by decide), unsolvable_of (by decide)⟩

theorem witness_inv_reset : Inv State.reset := by
  constructor <;> first | decide | (intro c; cases c <;> decide)

theorem witness_inv_ready : Inv ready := by
  constructor <;> first | decide | (intro c; cases c <;> decide)

theorem witness_inv_serving : Inv (serving 6) ∧ Inv (serving 1) := by
  constructor <;> constructor <;> first | decide | (intro c; cases c <;> decide)

theorem witness_EncodeOfDecodeIsTheWord : decode 0x0220000000000064 = .ok (.solve 1 100) := by rfl

theorem witness_WordDecodesIffUnusedBitsAreZero :
    decode 0x0220000000000064 = .ok (.solve 1 100) ∧
      (fieldOp 0x0220000000000064 = opcodeCode .solve ∧ unusedZero (opcodeFormat .solve) 0x0220000000000064) := by
  refine ⟨rfl, rfl, ?_⟩
  unfold unusedZero
  decide

theorem witness_StepRunsTheDecodedOperation :
    (sched [.host 0x0220000000000064] State.reset).schedule = .host 0x0220000000000064 :: [] ∧
      decode 0x0220000000000064 = .ok (.solve 1 100) := ⟨rfl, rfl⟩

theorem witness_IllegalWordIsAnsweredAndChangesNothing :
    (sched [.host 0x0280000000000064] State.reset).schedule = .host 0x0280000000000064 :: [] ∧
      decode 0x0280000000000064 = .error .unusedFieldNotZero := ⟨rfl, rfl⟩

/-- Each kind of move enabled, and, for those that can be disabled, disabled: the timer stopped, the flag clear, B
behind A. -/
theorem witness_StepMakesExactlyTheEnabledMoves :
    (∃ t, step (sched [.host 0] State.reset) = .next t) ∧
    (∃ t, step (sched [.busByte 0] State.reset) = .next t) ∧
    (∃ t, step (sched [.busRead] { State.reset with rsp := some 0 }) = .next t) ∧
    (∃ t, step (sched [.busRead] { State.reset with tx := [0] }) = .next t) ∧
    (∃ t, step (sched [.compareMatch .B] (serving 6)) = .next t) ∧
    (∃ t, step (sched [.service .A] (serving 6)) = .next t) ∧
    (∃ t, step (sched [.service .B]
      { serving 6 with ocie := { a := false, b := true }, ocf := { a := true, b := true } }) = .next t) ∧
    (¬∃ t, step (sched [.busRead] State.reset) = .next t) ∧
    (¬∃ t, step (sched [.compareMatch .A] State.reset) = .next t) ∧
    (¬∃ t, step (sched [.service .A] { serving 6 with ocf := { a := false, b := true } }) = .next t) ∧
    (¬∃ t, step (sched [.service .B]
      { serving 6 with ocie := { a := true, b := true }, ocf := { a := true, b := true } }) = .next t) := by
  refine ⟨⟨_, rfl⟩, ⟨_, rfl⟩, ⟨_, rfl⟩, ⟨_, rfl⟩, ⟨_, rfl⟩, ⟨_, rfl⟩, ⟨_, rfl⟩, ?_, ?_, ?_, ?_⟩ <;> rintro ⟨t, h⟩ <;> cases h

theorem witness_EveryCommandWordIsAnswered :
    (sched [.host 0xFF00000000000000] State.reset).schedule = .host 0xFF00000000000000 :: [] := rfl

theorem witness_EightBusBytesAreOneCommand :
    ((sched ((bytesOfWord 0x0300000003E8001E).map .busByte ++ []) State.reset).rx = [] ∧
      (sched ((bytesOfWord 0x0300000003E8001E).map .busByte ++ []) State.reset).schedule =
        (bytesOfWord 0x0300000003E8001E).map .busByte ++ []) ∧
    ∃ s : State, s.tx = [] ∧ s.hostRx = [] ∧ s.rsp = some 0x00000000000003E7 ∧
      s.schedule = List.replicate 8 .busRead ++ [] :=
  ⟨⟨rfl, rfl⟩,
    sched (List.replicate 8 .busRead ++ []) { State.reset with rsp := some 0x00000000000003E7 }, rfl, rfl, rfl, rfl⟩

theorem witness_ClkdivAnswersTheDivisor :
    (128#32).toNat * (State.reset.params.clkHz / 1000000) ∈ State.reset.params.divisors ∧
      (129#32).toNat * (State.reset.params.clkHz / 1000000) ∉ State.reset.params.divisors ∧
      (0#32).toNat * (State.reset.params.clkHz / 1000000) ∉ State.reset.params.divisors := by decide

theorem witness_SolveAnswersTheFirstPrescaler :
    SolvesTo State.reset.params .fast (500000#32).toNat 1 1 1 ∧
      SolvesTo reset8MHz.params .phaseCorrect (1#32).toNat 3 64 62500 :=
  ⟨witness_solvesTo_fast, witness_solvesTo_phase⟩

theorem witness_SolveRefusesModesAndFrequencies :
    2 ≤ (2#2).toNat ∧ 2 ≤ (3#2).toNat ∧
      (0#2 = modeCode (timerMode .fast) ∧ Unsolvable State.reset.params .fast (0#32).toNat) ∧
      (1#2 = modeCode (timerMode .phaseCorrect) ∧ Unsolvable State.reset.params .phaseCorrect (500001#32).toNat) :=
  ⟨by decide, by decide, ⟨rfl, witness_unsolvable.1⟩, ⟨rfl, witness_unsolvable.2⟩⟩

/-- A frequency with an answer and one with none, next to it. -/
theorem witness_EveryFrequencyHasOneAnswerOrNone :
    SolvesTo State.reset.params .fast (500000#32).toNat 1 1 1 ∧
      Unsolvable State.reset.params .phaseCorrect (500001#32).toNat :=
  ⟨witness_solvesTo_fast, witness_unsolvable.2⟩

theorem witness_SolvedTopIsNeverZero :
    SolvesTo Cfg.default1MHz .fast 500000 1 1 1 ∧ SolvesTo Cfg.default8MHz .phaseCorrect 1 3 64 62500 :=
  ⟨witness_solvesTo_fast, witness_solvesTo_phase⟩

theorem witness_DefaultPrescalersServeEveryFrequency :
    (Cfg.default1MHz.prescalers = [1, 8, 64, 256, 1024] ∧ 1 ≤ 1 ∧ 1 ≤ Cfg.default1MHz.clkHz / 2) ∧
      (Cfg.default8MHz.prescalers = [1, 8, 64, 256, 1024] ∧ 1 ≤ 4000000 ∧ 4000000 ≤ Cfg.default8MHz.clkHz / 2) := by
  decide

theorem witness_SolvedTopIsTheLargest :
    SolvesTo Cfg.default1MHz .fast 1000 1 1 999 ∧ 8 ∈ Cfg.default1MHz.prescalers ∧
      topIsNearest Cfg.default1MHz.clkHz 1000 8 124 .fast ∧ topInRange 124 .fast := by
  refine ⟨witness_solvesTo_1000, by decide, ?_, ?_⟩
  · unfold topIsNearest
    decide
  · unfold topInRange
    decide

theorem witness_TopZeroIsTheUnsupportedSentinel :
    (∃ t r, exec (.solve 0 500000) State.reset = .next t ∧ t.rsp = some r ∧ rspErr r = errCode .ok) ∧
      ∃ t r, exec (.solve 0 500001) State.reset = .next t ∧ t.rsp = some r ∧
        rspErr r = errCode .unsupportedFrequency :=
  ⟨⟨_, 0x0001000100010000, rfl, rfl, rfl⟩, ⟨_, 0x0100000000000000, rfl, rfl, rfl⟩⟩

theorem witness_EncodeAnswersTheRoundedCompareValue : (100#16).toNat ≤ 100 ∧ 100 < (101#16).toNat := by decide

theorem witness_DecodeAnswersTheTruncatedDuty :
    (1000#16 ≠ 0 ∧ (1000#16).toNat ≤ (1000#16).toNat) ∧ (0#16 = 0 ∨ (0#16).toNat < (0#16).toNat) ∧
      (1000#16 = 0 ∨ (1000#16).toNat < (1001#16).toNat) := by decide

theorem witness_DutyRoundTripIsWithinOne : 100 ≤ (100#16).toNat ∧ (100#16).toNat ≤ 100 := by decide

theorem witness_CalculatorsAreFunctionsOfTheCommand :
    isCalculator (.encode 1000 30) = true ∧ State.reset.params = ready.params ∧ State.reset ≠ ready := by decide

theorem witness_CalculatorsCommuteWithEvents :
    isCalculator (.encode 1000 30) = true ∧
      (∃ t u, exec (.encode 1000 30) (serving 6) = .next t ∧ takeMove (.compareMatch .A) (serving 6) = .next u) ∧
      (∃ t u, exec (.encode 1000 30) (serving 6) = .next t ∧ takeMove (.service .A) (serving 6) = .next u) ∧
      ∃ t, exec (.encode 1000 30) State.reset = .next t ∧ ¬∃ u, takeMove (.compareMatch .A) State.reset = .next u :=
  ⟨rfl, ⟨_, _, rfl, rfl⟩, ⟨_, _, rfl, rfl⟩, _, rfl, by rintro ⟨u, h⟩; cases h⟩

/-- The selector at both ends of the list. -/
theorem witness_ConfigInstallsAndBinds :
    (1 ≤ (1#3).toNat ∧ (1#3).toNat ≤ State.reset.params.prescalers.length ∧ 1#16 ≠ 0) ∧
      (1 ≤ (5#3).toNat ∧ (5#3).toNat ≤ State.reset.params.prescalers.length ∧ 65535#16 ≠ 0) := by decide

/-- Each refused value, at the boundary next to the accepted ones. -/
theorem witness_ConfigRefusesReservedValues :
    (3#2).toNat = 3 ∧ 5 < (6#3).toNat ∧ (0#3).toNat = 0 ∧ State.reset.params.prescalers.length < (6#3).toNat ∧
      (0#16 : Half) = 0 := by decide

theorem witness_BindingForcesOutputAndKeepsTheLevel :
    1 ≤ (5#3).toNat ∧ (5#3).toNat ≤ State.reset.params.prescalers.length ∧ 1#16 ≠ 0 ∧
      Policy.toggle ≠ .disconnected ∧ Policy.clear ≠ .disconnected ∧ Policy.set ≠ .disconnected := by decide

theorem witness_BypassedPwmIsAStaticOutput : 2 ≤ (2#2).toNat ∧ 2 ≤ (3#2).toNat := by decide

theorem witness_PwmProgramsTheSignal :
    (1 ≤ (1#8).toNat ∧ (1#8).toNat ≤ 99 ∧ SolvesTo State.reset.params .fast (500000#32).toNat 1 1 1) ∧
      (1 ≤ (99#8).toNat ∧ (99#8).toNat ≤ 99 ∧ SolvesTo reset8MHz.params .phaseCorrect (1#32).toNat 3 64 62500) :=
  ⟨⟨by decide, by decide, witness_solvesTo_fast⟩, ⟨by decide, by decide, witness_solvesTo_phase⟩⟩

theorem witness_PwmRefusesInOrder :
    (2 ≤ (2#2).toNat ∨ 100 < (30#8).toNat) ∧ (2 ≤ (0#2).toNat ∨ 100 < (101#8).toNat) ∧
      (0#2 = modeCode (timerMode .fast) ∧ 1 ≤ (1#8).toNat ∧ (1#8).toNat ≤ 99 ∧
        Unsolvable State.reset.params .fast (0#32).toNat) ∧
      (1#2 = modeCode (timerMode .phaseCorrect) ∧ 1 ≤ (99#8).toNat ∧ (99#8).toNat ≤ 99 ∧
        Unsolvable State.reset.params .phaseCorrect (500001#32).toNat) :=
  ⟨by decide, by decide, ⟨rfl, by decide, by decide, witness_unsolvable.1⟩,
    ⟨rfl, by decide, by decide, witness_unsolvable.2⟩⟩

theorem witness_SecondPwmChangesOnlyTheDuty :
    1 ≤ (1#8).toNat ∧ (1#8).toNat ≤ 99 ∧ 1 ≤ (99#8).toNat ∧ (99#8).toNat ≤ 99 ∧
      SolvesTo State.reset.params .fast (500000#32).toNat 1 1 1 :=
  ⟨by decide, by decide, by decide, by decide, witness_solvesTo_fast⟩

/-- The compare register equal to the top, no top, and one above the top. -/
theorem witness_RddutyDividesTheRegisters :
    (ready.icr ≠ 0 ∧ (({ ready with ocr := { a := 127, b := 0 } } : State).ocr.get .A).toNat ≤ ready.icr.toNat) ∧
      (State.reset.icr = 0 ∨ State.reset.icr.toNat < (State.reset.ocr.get .A).toNat) ∧
      (ready.icr = 0 ∨ ready.icr.toNat < (({ ready with ocr := { a := 128, b := 0 } } : State).ocr.get .A).toNat) := by
  decide

theorem witness_RddutyAfterPwmIsWithinOne :
    1 ≤ (99#8).toNat ∧ (99#8).toNat ≤ 99 ∧ SolvesTo State.reset.params .fast (1000#32).toNat 1 1 999 ∧ 100 ≤ 999 :=
  ⟨by decide, by decide, witness_solvesTo_1000, by decide⟩

theorem witness_PinstatReportsThePin :
    (serving 6).pinlvl.get .A = .high ∧ (serving 6).pinlvl.get .B = .X ∧
      ({ ready with pinlvl := { a := .low, b := .X } } : State).pinlvl.get .A = .low := by decide

/-- One pulse and the most pulses `REM_BITS = 16` holds, duty cycles at both ends; the other channel's train running. -/
theorem witness_TrainArmsThePulseTrain :
    (1#16 ≠ 0 ∧ 1 ≤ (1#8).toNat ∧ (1#8).toNat ≤ 99 ∧ 1 ≤ (99#8).toNat ∧ (99#8).toNat ≤ 99 ∧
      2 * (1#16).toNat ≤ ready.params.remMax ∧ ready.cfg.valid = true ∧ ready.pol.get .A ≠ .disconnected) ∧
    2 * (32767#16).toNat ≤ ready.params.remMax ∧
    (({ serving 6 with pol := { a := .toggle, b := .set } } : State).pol.get .B ≠ .disconnected ∧
      (serving 6).seq.remaining ≠ 0 ∧ (serving 6).seq.active ≠ .B) := by decide

/-- Each failing check next to its limit, in the state that passes the checks before it. -/
theorem witness_TrainRefusesInOrder :
    (0#16 = 0 ∧ (0#8).toNat = 0 ∧ 100 ≤ (100#8).toNat) ∧
    (¬(32768#16 = 0 ∨ (33#8).toNat = 0 ∨ 100 ≤ (33#8).toNat ∨ (66#8).toNat = 0 ∨ 100 ≤ (66#8).toNat) ∧
      ready.params.remMax < 2 * (32768#16).toNat) ∧
    (¬(1#16 = 0 ∨ (33#8).toNat = 0 ∨ 100 ≤ (33#8).toNat ∨ (66#8).toNat = 0 ∨ 100 ≤ (66#8).toNat) ∧
      ¬ready.params.remMax < 2 * (1#16).toNat ∧ (State.reset.cfg.valid = false ∨ ready.pol.get .B = .disconnected) ∧
      ready.pol.get .B = .disconnected) := by decide

/-- A running timer, and each policy with a level its clause speaks of. -/
theorem witness_MatchSetsTheFlagAndActsOnThePin :
    (sched [.compareMatch .A] (serving 6)).schedule = .compareMatch .A :: [] ∧
      (sched [.compareMatch .A] (serving 6)).tclk ≠ 0 ∧ (serving 6).pol.get .A = .toggle ∧
      (serving 6).pinlvl.get .A = .high ∧ (serving 6).pol.get .B = .disconnected ∧
      ∀ p l, ({ serving 6 with pol := { a := p, b := .set }, pinlvl := { a := l, b := .X } } : State).pol.get .A = p ∧
        ({ serving 6 with pol := { a := p, b := .set }, pinlvl := { a := l, b := .X } } : State).pinlvl.get .A = l :=
  ⟨rfl, by decide, rfl, rfl, rfl, fun _ _ => ⟨rfl, rfl⟩⟩

/-- Not enabled (masked); enabled with one, two and, for the inactive channel, no service owed. -/
theorem witness_ServiceAlternatesAndEndsTheTrain :
    ¬(State.reset.gie = true ∧ State.reset.ocie.get .A = true ∧ State.reset.ocf.get .A = true ∧
      (Ch.A = .B → ¬(State.reset.ocie.a = true ∧ State.reset.ocf.a = true))) ∧
    ((serving 1).gie = true ∧ (serving 1).ocie.get .A = true ∧ (serving 1).ocf.get .A = true ∧
      (Ch.A = .B → ¬((serving 1).ocie.a = true ∧ (serving 1).ocf.a = true))) ∧
    ((serving 1).seq.active = .A ∧ (serving 1).seq.remaining.toNat = 1) ∧
    ((serving 2).seq.active = .A ∧ 2 ≤ (serving 2).seq.remaining.toNat) ∧
    ((serving 0).gie = true ∧ (serving 0).ocie.get .A = true ∧ (serving 0).ocf.get .A = true ∧
      (serving 0).seq.remaining = 0) := by decide

/-- The state whose next move is a command. -/
def issuing (w : Word) (s : State) : State := sched [.host w] s

/-- A service; an accepted TRAIN; a refused one; STOP; a POLL. -/
theorem witness_SequencerFollowsItsTransitionTable :
    (Inv (serving 6) ∧ Inv ready) ∧
    (∃ t, step (sched [.service .A] (serving 6)) = .next t ∧ servesNext (sched [.service .A] (serving 6)) = true) ∧
    (∃ t, step (issuing 0x2000000042210003 ready) = .next t ∧
      issuedInstr (issuing 0x2000000042210003 ready) = some (.train .A 3 33 66) ∧ t.rsp = some 0x0000000000000006 ∧
      rspErr 0x0000000000000006 = 0) ∧
    (∃ t, step (issuing 0x2000000032320000 ready) = .next t ∧
      issuedInstr (issuing 0x2000000032320000 ready) = some (.train .A 0 50 50) ∧ t.rsp = some 0x0400000000000000 ∧
      rspErr 0x0400000000000000 ≠ 0) ∧
    (∃ t, step (issuing 0x2100000000000000 (serving 6)) = .next t ∧
      issuedInstr (issuing 0x2100000000000000 (serving 6)) = some .stop) ∧
    (∃ t, step (issuing 0x2200000000000000 (serving 6)) = .next t ∧
      servesNext (issuing 0x2200000000000000 (serving 6)) = false ∧
      (issuedInstr (issuing 0x2200000000000000 (serving 6))).all (fun i => !writesTrain i) = true) :=
  ⟨⟨witness_inv_serving.1, witness_inv_ready⟩, ⟨_, rfl, rfl⟩, ⟨_, rfl, rfl, rfl, rfl⟩,
    ⟨_, rfl, rfl, rfl, by decide⟩, ⟨_, rfl, rfl⟩, ⟨_, rfl, rfl, rfl⟩⟩

/-- The train as it was (POLL), one service fewer, STOP, and a train replaced. -/
theorem witness_TrainIsReplacedWholeOrNotAtAll :
    (∃ t, step (issuing 0x2200000000000000 (serving 6)) = .next t ∧ t.seq = (serving 6).seq) ∧
    (∃ t, step (sched [.service .A] (serving 6)) = .next t ∧ t.seq.remaining = 5) ∧
    (∃ t, step (issuing 0x2100000000000000 (serving 6)) = .next t ∧ t.seq.remaining = 0) ∧
    ∃ t, step (issuing 0x2000000042210003 ready) = .next t ∧ t.seq.value1 = 84 ∧
      rspErr 0x0000000000000006 = errCode .ok ∧ t.rsp = some 0x0000000000000006 :=
  ⟨⟨_, rfl, rfl⟩, ⟨_, rfl, rfl⟩, ⟨_, rfl, rfl⟩, _, rfl, by decide, by decide, by decide⟩

/-- `N = 1`, two matches and two services: the services counted are `2N`. -/
theorem witness_TrainOfNPulsesTakes2NServices :
    ∃ t u, Inv { ready with gie := true, schedule := promptSchedule .A 2 } ∧
      exec (.train .A 1 33 66) { ready with gie := true, schedule := promptSchedule .A 2 } = .next t ∧
      t.rsp = some 0x0000000000000002 ∧ rspErr 0x0000000000000002 = 0 ∧ undisturbedRun 4 t = some (u, 2) := by
  refine ⟨_, _, ?_, rfl, rfl, rfl, rfl⟩
  constructor <;> first | decide | (intro c; cases c <;> decide)

theorem witness_PromptlyServicedTrainEnds :
    Inv (sched (promptSchedule .A 6 ++ []) (serving 6)) ∧
      (sched (promptSchedule .A 6 ++ []) (serving 6)).gie = true ∧
      (sched (promptSchedule .A 6 ++ []) (serving 6)).seq.remaining ≠ 0 ∧
      (sched (promptSchedule .A 6 ++ []) (serving 6)).schedule =
        promptSchedule (serving 6).seq.active (serving 6).seq.remaining.toNat ++ [] := by
  refine ⟨?_, rfl, by decide, rfl⟩
  constructor <;> first | decide | (intro c; cases c <;> decide)

theorem witness_FinishedTrainNeedsANewBinding :
    ∃ t, (sched [.service .A] (serving 1)).schedule = .service .A :: [] ∧ (serving 1).seq.active = .A ∧
      (serving 1).seq.remaining.toNat = 1 ∧ step (sched [.service .A] (serving 1)) = .next t ∧ 32767#16 ≠ 0 ∧
      1 ≤ (1#8).toNat ∧ (1#8).toNat ≤ 99 ∧ 1 ≤ (99#8).toNat ∧ (99#8).toNat ≤ 99 ∧
      2 * (32767#16).toNat ≤ (serving 1).params.remMax :=
  ⟨_, rfl, rfl, rfl, rfl, by decide, by decide, by decide, by decide, by decide, by decide⟩

theorem witness_TwoMatchesCollapseIntoOneFlag :
    (sched [.compareMatch .A, .compareMatch .A] (serving 6)).schedule = .compareMatch .A :: .compareMatch .A :: [] ∧
      (serving 6).tclk ≠ 0 ∧ (serving 6).pol.get .A = .toggle := ⟨rfl, by decide, rfl⟩

theorem witness_FailedCommandChangesNothing :
    ∃ t, hostCommand 0x0300000003E80065 State.reset = .next t ∧ t.rsp = some 0x0400000000000000 ∧
      rspErr 0x0400000000000000 ≠ 0 := ⟨_, rfl, rfl, by decide⟩

theorem witness_EventsLeaveHostStateAlone :
    (∃ t, step (sched [.compareMatch .A] (serving 6)) = .next t) ∧
      ∃ t, step (sched [.service .A] (serving 1)) = .next t := ⟨⟨_, rfl⟩, ⟨_, rfl⟩⟩

theorem witness_OnlyGieCommandsChangeTheEnable :
    (∃ t, step (issuing 0x3000000000000000 ready) = .next t ∧ t.gie ≠ (issuing 0x3000000000000000 ready).gie) ∧
      ∃ t, step (issuing 0x3100000000000000 (serving 6)) = .next t ∧
        t.gie ≠ (issuing 0x3100000000000000 (serving 6)).gie :=
  ⟨⟨_, rfl, by decide⟩, ⟨_, rfl, by decide⟩⟩

/-- Set by TRAIN; cleared by STOP, by the last service, and by a TRAIN on the other channel. -/
theorem witness_InterruptEnableHasItsWriters :
    (∃ t, step (issuing 0x2000000042210003 ready) = .next t ∧
      (issuing 0x2000000042210003 ready).ocie.get .A = false ∧ t.ocie.get .A = true) ∧
    (∃ t, step (issuing 0x2100000000000000 (serving 6)) = .next t ∧ (serving 6).ocie.get .A = true ∧
      t.ocie.get .A = false) ∧
    (∃ t, step (sched [.service .A] (serving 1)) = .next t ∧ (serving 1).ocie.get .A = true ∧
      t.ocie.get .A = false) ∧
    ∃ t, step (issuing 0x2080000042210003 { serving 6 with pol := { a := .toggle, b := .set } }) = .next t ∧
      (serving 6).ocie.get .A = true ∧ t.ocie.get .A = false :=
  ⟨⟨_, rfl, rfl, rfl⟩, ⟨_, rfl, rfl, rfl⟩, ⟨_, rfl, rfl, rfl⟩, ⟨_, rfl, rfl, rfl⟩⟩

/-- Set by a match; cleared by a service and by a TRAIN. -/
theorem witness_PendingFlagHasItsWriters :
    (∃ t, step (sched [.compareMatch .B] (serving 6)) = .next t ∧ (serving 6).ocf.get .B = false ∧
      t.ocf.get .B = true) ∧
    (∃ t, step (sched [.service .A] (serving 6)) = .next t ∧ (serving 6).ocf.get .A = true ∧
      t.ocf.get .A = false) ∧
    ∃ t, step (issuing 0x2000000042210003 (serving 6)) = .next t ∧ (serving 6).ocf.get .A = true ∧
      t.ocf.get .A = false :=
  ⟨⟨_, rfl, rfl, rfl⟩, ⟨_, rfl, rfl, rfl⟩, ⟨_, rfl, rfl, rfl⟩⟩

theorem witness_DirectionAndConfigurationStay :
    ∃ t, step (issuing 0x1100000000000000 ready) = .next t ∧
      (issuing 0x1100000000000000 ready).pindir.get .A = true ∧
      (issuing 0x1100000000000000 ready).cfg.valid = true := ⟨_, rfl, rfl, rfl⟩

theorem witness_ParametersNeverChange : ∃ t, step (issuing 0x1200001E000003E8 State.reset) = .next t := ⟨_, rfl⟩

theorem witness_StepKeepsTheInvariants :
    Inv (sched [.service .A] (serving 1)) ∧ ∃ t, step (sched [.service .A] (serving 1)) = .next t := by
  refine ⟨?_, _, rfl⟩
  constructor <;> first | decide | (intro c; cases c <;> decide)

theorem witness_PollZeroMeansIdle :
    ∃ t, Inv ready ∧ exec .poll ready = .next t ∧ t.rsp = some 0 ∧ rspVal 0 = 0 :=
  ⟨_, witness_inv_ready, rfl, rfl, rfl⟩

theorem witness_ReservedOperandIsRefused :
    (Instr.config .A 0 1 6 999 false).wellFormed State.reset.params = false ∧
      (Instr.train .A 1 101 50).wellFormed State.reset.params = false := by decide

theorem witness_HostCriticalRestoresTheEnable :
    .gieon ∉ [Instr.stop, .gieoff, .poll] ∧ (serving 6).gie = true ∧ ready.gie = false := by decide

end Sys2Proof.Tests
end

section
/-! PROOF. The parameters are constants (00_scope.md R6, 10_state.md R46): the frame of `params` over the compound
writes, over every operation, over a command word, and over a step. -/

namespace Sys2Proof.Machine

/-! ## The compound writes -/

@[simp] theorem refusedAs_params (e : Err) (s : State) : (refusedAs e s).params = s.params := rfl

@[simp] theorem unbindPin_params (ch : Ch) (s : State) : (unbindPin ch s).params = s.params := by
  rw [unbindPin_eq]

@[simp] theorem bypassWrites_params (ch : Ch) (level : Bool) (s : State) :
    (bypassWrites ch level s).params = s.params := rfl

@[simp] theorem pwmWrites_params (ch : Ch) (m : SignalMode) (k : Sel) (top c : Half) (s : State) :
    (pwmWrites ch m k top c s).params = s.params := rfl

@[simp] theorem configWrites_params (ch : Ch) (m : Mode) (p : Policy) (psel : Sel) (top : Half) (run : Bool)
    (s : State) : (configWrites ch m p psel top run s).params = s.params := by
  rw [configWrites_eq]

@[simp] theorem preemptOther_params (ch : Ch) (s : State) : (preemptOther ch s).params = s.params := by
  rw [preemptOther_eq]
  split <;> rfl

@[simp] theorem trainWrites_params (ch : Ch) (n : Half) (d1 d2 : Byte) (s : State) :
    (trainWrites ch n d1 d2 s).params = s.params := by
  rw [trainWrites_eq]
  exact preemptOther_params ch s

@[simp] theorem stopWrites_params (s : State) : (stopWrites s).params = s.params := by
  rw [stopWrites_eq]

@[simp] theorem matchChannel_params (ch : Ch) (s : State) : (matchChannel ch s).params = s.params := rfl

@[simp] theorem serviceChannel_params (ch : Ch) (s : State) : (serviceChannel ch s).params = s.params := by
  rw [serviceChannel_eq]
  split
  · split <;> rfl
  · rfl

@[simp] theorem sendByte_params (s : State) : (sendByte s).params = s.params := by
  obtain ⟨x, h, r, e⟩ := sendByte_frame s
  rw [e]

/-! ## Operations, command words and steps -/

theorem exec_params {i : Instr} {s t : State} (h : exec i s = .next t) : t.params = s.params := by
  cases i with
  | clkdiv p => obtain rfl | ⟨-, rfl⟩ := execClkdiv_cases h <;> simp
  | solve mode f => obtain ⟨-, rfl⟩ | ⟨_, -, -, rfl⟩ | ⟨_, _, _, -, -, rfl⟩ := execSolve_cases h <;> simp
  | encode top duty => obtain rfl | ⟨-, rfl⟩ := execEncode_cases h <;> simp
  | decode top c => obtain rfl | ⟨-, -, rfl⟩ := execDecode_cases h <;> simp
  | config ch mode pol psel top run =>
    obtain rfl | ⟨_, _, -, -, -, -, rfl⟩ := execConfig_cases h <;> simp
  | disconnect ch => rw [execDisconnect_cases h]; simp
  | pwm ch mode f duty =>
    obtain rfl | rfl | ⟨rfl, -⟩ | ⟨_, _, _, -, -, -, -, rfl⟩ := execPwm_cases h <;> simp
  | rdduty ch => obtain rfl | ⟨-, -, rfl⟩ := execRdduty_cases h <;> simp
  | pinstat ch => obtain ⟨_, _, rfl⟩ := execPinstat_cases h; simp
  | train ch n d1 d2 => obtain ⟨_, -, rfl⟩ | ⟨-, -, -, -, -, -, rfl⟩ := execTrain_cases h <;> simp
  | stop => rw [execStop_cases h]; simp
  | poll => rw [execPoll_cases h]; simp
  | gieon => rw [execGieon_cases h]; simp
  | gieoff => rw [execGieoff_cases h]; simp

theorem hostCommand_params {cmd : Word} {s t : State} (h : hostCommand cmd s = .next t) : t.params = s.params := by
  obtain ⟨i, -, hi⟩ | ⟨_, -, rfl⟩ := hostCommand_cases h
  · exact exec_params hi
  · exact refusedAs_params _ s

theorem step_params {s t : State} (h : step s = .next t) : t.params = s.params := by
  obtain ⟨-, rfl⟩ | ⟨cmd, rest, -, hcmd⟩ | ⟨b, rest, -, -, rfl⟩ | ⟨b, rest, -, -, hcmd⟩ | ⟨ch, rest, -, -, rfl⟩ |
    ⟨ch, rest, -, -, rfl⟩ | ⟨rest, -, -, rfl⟩ := step_cases h
  · rfl
  · simpa using hostCommand_params hcmd
  · rfl
  · simpa using hostCommand_params hcmd
  · simp
  · simp
  · simp

/-- Settles O54, by the frame of `params` over each of the moves `step_cases` lists. -/
theorem parametersNeverChange : Obligations.ParametersNeverChange := fun _ _ h => step_params h

end Sys2Proof.Machine
end

section
/-! PROOF. What a step writes, as data to case on: the writes of each operation with the checks that accepted it, and
the kinds of step of 20_memory.md R51 with the operation `issuedInstr` names. -/

namespace Sys2Proof.Machine

/-! ## The writes of an operation -/

/-- The state an operation leaves before its response is written: as it was, or after its writes, under the checks of
60_exceptions.md R169 that lead to them. -/
inductive CommandWrites (s : State) : Instr → State → Prop
  | nothing (i : Instr) : CommandWrites s i s
  | draw (ch : Ch) (n : Nat) : CommandWrites s (.pinstat ch) { s with draws := n }
  | config {ch : Ch} {mode : BitVec 2} {pol : BitVec 3} {psel : Sel} {top : Half} {run : Bool} {m : Mode} {p : Policy}
      (hmode : modeOfBits mode = some m) (hpol : policyOfBits pol = some p)
      (hsel : selectorOk s.params psel = true) (htop : top ≠ 0) :
      CommandWrites s (.config ch mode pol psel top run) (configWrites ch m p psel top run s)
  | disconnect (ch : Ch) : CommandWrites s (.disconnect ch) (unbindPin ch s)
  | bypass {ch : Ch} {mode : BitVec 2} {f : Word32} {duty : Byte} (hduty : duty.toNat = 0 ∨ duty.toNat = 100) :
      CommandWrites s (.pwm ch mode f duty) (bypassWrites ch (duty.toNat == 100) s)
  | pwm {ch : Ch} {mode : BitVec 2} {f : Word32} {duty : Byte} {m : SignalMode} {k top : Nat}
      (hmode : signalModeOfBits mode = some m) (hlow : 1 ≤ duty.toNat) (hhigh : duty.toNat ≤ 99)
      (hsolve : solveFrequency s.params m f.toNat = some (k, top)) :
      CommandWrites s (.pwm ch mode f duty)
        (pwmWrites ch m (BitVec.ofNat 3 k) (BitVec.ofNat 16 top) (BitVec.ofNat 16 (encodeDuty top duty.toNat)) s)
  | train {ch : Ch} {n : Half} {d1 d2 : Byte} (hn : n ≠ 0) (hd1 : trainDutyOk d1 = true) (hd2 : trainDutyOk d2 = true)
      (hfit : 2 * n.toNat ≤ s.params.remMax) (hvalid : s.cfg.valid = true) (hbound : s.pol.get ch ≠ .disconnected) :
      CommandWrites s (.train ch n d1 d2) (trainWrites ch n d1 d2 s)
  | stop : CommandWrites s .stop (stopWrites s)
  | gieon : CommandWrites s .gieon (setGie true s)
  | gieoff : CommandWrites s .gieoff (setGie false s)

/-- An operation answers with a response over the writes of one of its forms. -/
theorem exec_commandWrites {i : Instr} {s t : State} (h : exec i s = .next t) :
    ∃ r u, CommandWrites s i u ∧ t = writeResponse r u := by
  cases i with
  | clkdiv p => obtain rfl | ⟨-, rfl⟩ := execClkdiv_cases h <;> exact ⟨_, s, .nothing _, rfl⟩
  | solve mode f =>
    obtain ⟨-, rfl⟩ | ⟨_, -, -, rfl⟩ | ⟨_, _, _, -, -, rfl⟩ := execSolve_cases h <;> exact ⟨_, s, .nothing _, rfl⟩
  | encode top duty => obtain rfl | ⟨-, rfl⟩ := execEncode_cases h <;> exact ⟨_, s, .nothing _, rfl⟩
  | decode top c => obtain rfl | ⟨-, -, rfl⟩ := execDecode_cases h <;> exact ⟨_, s, .nothing _, rfl⟩
  | config ch mode pol psel top run =>
    obtain rfl | ⟨m, p, hmode, hpol, hsel, htop, rfl⟩ := execConfig_cases h
    · exact ⟨_, s, .nothing _, rfl⟩
    · exact ⟨_, _, .config hmode hpol hsel htop, rfl⟩
  | disconnect ch => exact ⟨_, _, .disconnect ch, execDisconnect_cases h⟩
  | pwm ch mode f duty =>
    obtain rfl | rfl | ⟨rfl, hduty⟩ | ⟨m, k, top, hmode, hlow, hhigh, hsolve, rfl⟩ := execPwm_cases h
    · exact ⟨_, s, .nothing _, rfl⟩
    · exact ⟨_, s, .nothing _, rfl⟩
    · exact ⟨_, _, .bypass hduty, rfl⟩
    · exact ⟨_, _, .pwm hmode hlow hhigh hsolve, rfl⟩
  | rdduty ch => obtain rfl | ⟨-, -, rfl⟩ := execRdduty_cases h <;> exact ⟨_, s, .nothing _, rfl⟩
  | pinstat ch =>
    obtain ⟨_, n, rfl⟩ := execPinstat_cases h
    exact ⟨_, _, .draw ch n, rfl⟩
  | train ch n d1 d2 =>
    obtain ⟨_, -, rfl⟩ | ⟨hn, hd1, hd2, hfit, hvalid, hbound, rfl⟩ := execTrain_cases h
    · exact ⟨_, s, .nothing _, rfl⟩
    · exact ⟨_, _, .train hn hd1 hd2 hfit hvalid hbound, rfl⟩
  | stop => exact ⟨_, _, .stop, execStop_cases h⟩
  | poll => exact ⟨_, s, .nothing _, execPoll_cases h⟩
  | gieon => exact ⟨_, _, .gieon, execGieon_cases h⟩
  | gieoff => exact ⟨_, _, .gieoff, execGieoff_cases h⟩

/-! ## The kinds of step -/

/-- The state in which a step's move is made: its move is off the schedule and its byte, if any, is taken in. -/
def tookIn (s : State) (rest : List Event) (rx : List Byte) : State := { s with schedule := rest, rx := rx }

@[simp] theorem tookIn_spec (s : State) (rest : List Event) (rx : List Byte) :
    (tookIn s rest rx).cfg = s.cfg ∧ (tookIn s rest rx).seq = s.seq ∧ (tookIn s rest rx).ocie = s.ocie ∧
      (tookIn s rest rx).ocf = s.ocf ∧ (tookIn s rest rx).gie = s.gie ∧ (tookIn s rest rx).pindir = s.pindir ∧
      (tookIn s rest rx).rx = rx :=
  ⟨rfl, rfl, rfl, rfl, rfl, rfl, rfl⟩

/-- What a step can be (20_memory.md R51, R54): no move that shows, an illegal word, an operation, a match, a service, a
byte of a response. A command word still arriving stays shorter than eight bytes. -/
inductive StepKind (s : State) : State → Prop
  | quiet (rest : List Event) (rx : List Byte) (hrx : s.rx.length < 8 → rx.length < 8) : StepKind s (tookIn s rest rx)
  | illegal (rest : List Event) (rx : List Byte) (hrx : s.rx.length < 8 → rx.length < 8) :
      StepKind s (refusedAs .illegalCommand (tookIn s rest rx))
  | command {i : Instr} {u : State} (rest : List Event) (rx : List Byte) (r : Response)
      (hrx : s.rx.length < 8 → rx.length < 8) (hissued : issuedInstr s = some i)
      (hwrites : CommandWrites (tookIn s rest rx) i u) : StepKind s (writeResponse r u)
  | compareMatch {ch : Ch} {rest : List Event} (hnext : s.schedule = .compareMatch ch :: rest)
      (hclocked : s.tclk ≠ 0) : StepKind s (matchChannel ch (tookIn s rest s.rx))
  | service {ch : Ch} {rest : List Event} (hnext : s.schedule = .service ch :: rest)
      (henabled : serviceEnabled ch s = true) : StepKind s (serviceChannel ch (tookIn s rest s.rx))
  | busRead (rest : List Event) : StepKind s (sendByte (tookIn s rest s.rx))

/-- A command word that the next step receives is one of two kinds of step. -/
theorem StepKind.of_hostCommand {s t : State} {cmd : Word} {rest : List Event} {rx : List Byte}
    (hrx : s.rx.length < 8 → rx.length < 8) (hword : issuedWord s = some cmd)
    (h : hostCommand cmd (tookIn s rest rx) = .next t) : StepKind s t := by
  obtain ⟨i, hi, hexec⟩ | ⟨_, -, rfl⟩ := hostCommand_cases h
  · obtain ⟨r, u, hwrites, rfl⟩ := exec_commandWrites hexec
    exact .command rest rx r hrx (by simp [issuedInstr, hword, hi]) hwrites
  · exact .illegal rest rx hrx

theorem step_kind {s t : State} (h : step s = .next t) : StepKind s t := by
  obtain ⟨-, rfl⟩ | ⟨cmd, rest, hs, hcmd⟩ | ⟨b, rest, -, hl, rfl⟩ | ⟨b, rest, hs, hl, hcmd⟩ |
    ⟨ch, rest, hs, hclk, rfl⟩ | ⟨ch, rest, hs, hen, rfl⟩ | ⟨rest, -, -, rfl⟩ := step_cases h
  · exact .quiet t.schedule t.rx id
  · exact .of_hostCommand (rest := rest) (rx := s.rx) id (by simp [issuedWord, hs]) hcmd
  · exact .quiet rest (s.rx ++ [b]) fun _ => by simp; omega
  · exact .of_hostCommand (rest := rest) (rx := []) (fun _ => by simp) (by simp [issuedWord, hs, hl]) hcmd
  · exact .compareMatch hs hclk
  · exact .service hs hen
  · exact .busRead rest

end Sys2Proof.Machine
end

section
/-! PROOF. The solver's top is never 0 (40_calc.md R94 (a)): what makes a configuration PWM installs legal. -/

namespace Sys2Proof.Machine

/-- The element before the one a selector above 1 names is in the list, and the two are neighbours. -/
theorem prescaler_before {c : Cfg} {j p : Nat} (h : c.prescalers[j + 1]? = some p) :
    ∃ q, c.prescalers[j]? = some q ∧ q < p ∧ p ≤ 32768 * q := by
  obtain ⟨rest, e, -, hrest⟩ := admitted_prescalers_cons c
  obtain ⟨q, hq⟩ : ∃ q, c.prescalers[j]? = some q :=
    ⟨_, List.getElem?_eq_getElem (by have := (List.getElem?_eq_some_iff.1 h).1; omega)⟩
  rw [e] at h hq
  obtain ⟨hlt, hle⟩ := prescalersFrom_next hrest hq h
  exact ⟨q, by rw [e, hq], hlt, hle⟩

/-- In fast mode the first prescaler gives a top of at least 1, since `f` is at most half the clock, and any later one
does, since the one before it, at most 32768 times smaller, gave a top above 65535. -/
theorem SolvesTo.top_pos {c : Cfg} {m : SignalMode} {f k p top : Nat} (h : SolvesTo c m f k p top) : 1 ≤ top := by
  cases m with
  | phaseCorrect => exact h.inRange.1
  | fast =>
    by_contra htop
    obtain rfl : top = 0 := by omega
    have hf := h.frequencyPositive
    have hhalf := h.frequencyBelowHalf
    have hone : 2 * c.clkHz < 3 * (p * f) := by
      have := h.nearest.2
      omega
    have hp := h.prescaler
    cases hk : k - 1 with
    | zero =>
      obtain ⟨rest, e, -, -⟩ := admitted_prescalers_cons c
      obtain rfl : 1 = p := by simpa [hk, e] using hp
      omega
    | succ j =>
      rw [hk] at hp
      obtain ⟨q, hq, hlt, hle⟩ := prescaler_before hp
      have hqpos := prescaler_pos_of_getElem? c hq
      have hqf : 0 < q * f := Nat.mul_pos hqpos hf
      have hratio : p * f ≤ 32768 * (q * f) := by
        rw [← Nat.mul_assoc]
        exact Nat.mul_le_mul_right f hle
      have hcount : rnd c.clkHz (p * f) = 1 :=
        (topIsNearest_iff (m := .fast) (by omega) hf).1 h.nearest
      have hmono : rnd c.clkHz (p * f) ≤ rnd c.clkHz (q * f) := rnd_anti hqf (Nat.mul_le_mul_right f hlt.le)
      have hnone := (solveCandidate_none_iff_not_serves hqpos hf).2 (h.first j q (by omega) hq)
      have hbig : 65537 ≤ rnd c.clkHz (q * f) := by
        rcases (solveCandidate_none_iff _ _ _ _).1 hnone with hz | hb
        · simp only [solveDivisor] at hz
          omega
        · simp only [solveDivisor, countOfTop, counterMax] at hb
          omega
      rw [le_rnd_iff hqf] at hbig
      omega

theorem SolvesTo.top_le {c : Cfg} {m : SignalMode} {f k p top : Nat} (h : SolvesTo c m f k p top) :
    top ≤ counterMax := by
  cases m with
  | fast => exact h.inRange
  | phaseCorrect => exact h.inRange.2

theorem SolvesTo.selector_le {c : Cfg} {m : SignalMode} {f k p top : Nat} (h : SolvesTo c m f k p top) :
    k ≤ c.prescalers.length := by
  have := (List.getElem?_eq_some_iff.1 h.prescaler).1
  omega

/-- The registers hold a solved selector and top as they are, and both are legal for a configuration (10_state.md
R23). -/
theorem solved_configLegal {c : Cfg} {m : SignalMode} {f k top : Nat} (h : solveFrequency c m f = some (k, top)) :
    1 ≤ (BitVec.ofNat 3 k : Sel).toNat ∧ (BitVec.ofNat 3 k : Sel).toNat ≤ c.prescalers.length ∧
      1 ≤ (BitVec.ofNat 16 top : Half).toNat ∧ (BitVec.ofNat 16 top : Half).toNat ≤ counterMax := by
  have hs := (solveFrequency_some_iff c m f k top).1 h
  have hlen := (admitted_prescalers_length c).2
  have hk := hs.selector_le
  rw [toNat_sel (by omega), toNat_half hs.top_le]
  exact ⟨hs.selectorPositive, hk, hs.top_pos, hs.top_le⟩

end Sys2Proof.Machine
end

section
/-! PROOF. Every step keeps the invariants of 10_state.md R29: each write of an operation, each agent's move, then the
step. -/

namespace Sys2Proof.Machine

/-! ## The pins -/

/-- The three fields of one pin written together: its policy, its level and its direction. -/
def writePin (ch : Ch) (p : Policy) (l : Level) (output : Bool) (s : State) : State :=
  { s with pol := s.pol.put ch p, pinlvl := s.pinlvl.put ch l, pindir := s.pindir.put ch output }

/-- What the invariants ask of one pin: level `X` under a PWM policy (41_waveform.md R121), an output when it is bound
(R113). -/
def PinLegal (p : Policy) (l : Level) (output : Bool) : Prop :=
  (policyIsPwm p = true → l = .X) ∧ (p ≠ .disconnected → output = true)

theorem pinLegal_disconnected (l : Level) (output : Bool) : PinLegal .disconnected l output := by
  simp [PinLegal, policyIsPwm]

theorem Inv.pinLegal {s : State} (h : Inv s) (c : Ch) : PinLegal (s.pol.get c) (s.pinlvl.get c) (s.pindir.get c) :=
  ⟨h.pwmLevelUndefined c, h.boundIsOutput c⟩

theorem Inv.writePin {s : State} (h : Inv s) (ch : Ch) {p : Policy} {l : Level} {output : Bool}
    (hpin : PinLegal p l output) : Inv (writePin ch p l output s) := by
  have hall (c : Ch) : PinLegal ((s.pol.put ch p).get c) ((s.pinlvl.put ch l).get c)
      ((s.pindir.put ch output).get c) := by
    by_cases hc : c = ch
    · subst hc
      simpa using hpin
    · simpa [hc] using h.pinLegal c
  exact { h with
    pwmLevelUndefined := fun c => (hall c).1
    boundIsOutput := fun c => (hall c).2 }

theorem Inv.shutDownPin {s : State} (h : Inv s) (ch : Ch) : Inv (shutDownPin ch s) := by
  have e : Machine.shutDownPin ch s =
      Machine.writePin ch .disconnected (levelOfBool s.params.idleLevel) (s.pindir.get ch) s := by
    simp [shutDownPin_eq, Machine.writePin, put_get]
  rw [e]
  exact h.writePin ch (pinLegal_disconnected _ _)

theorem Inv.unbindPin {s : State} (h : Inv s) (ch : Ch) : Inv (unbindPin ch s) := by
  unfold Machine.unbindPin
  split
  · exact h
  · have e : setLevel ch .X (setPolicy ch .disconnected s) =
        Machine.writePin ch .disconnected .X (s.pindir.get ch) s := by
      simp [setLevel, setPolicy, Machine.writePin, put_get]
    rw [e]
    exact h.writePin ch (pinLegal_disconnected _ _)

theorem Inv.bindPin {s : State} (h : Inv s) (ch : Ch) (p : Policy) : Inv (bindPin ch p s) := by
  have e : Machine.bindPin ch p s =
      Machine.writePin ch p (if policyIsPwm p then .X else s.pinlvl.get ch) true s := by
    rw [bindPin_eq]
    split <;> simp [Machine.writePin, put_get]
  rw [e]
  exact h.writePin ch ⟨fun hp => if_pos hp, fun _ => rfl⟩

theorem Inv.bypassWrites {s : State} (h : Inv s) (ch : Ch) (level : Bool) : Inv (bypassWrites ch level s) :=
  h.writePin ch (pinLegal_disconnected (levelOfBool level) true)

/-- A match keeps a PWM pin at `X` (42_sequencer.md R152). -/
theorem matchLevel_of_pwm {p : Policy} (l : Level) (h : policyIsPwm p = true) : matchLevel p l = .X := by
  cases p with
  | nonInverting => rfl
  | inverting => rfl
  | disconnected => cases h
  | toggle => cases h
  | clear => cases h
  | set => cases h

/-! ## Writes the invariants do not speak of -/

theorem Inv.tookIn {s : State} (h : Inv s) (rest : List Event) {rx : List Byte}
    (hrx : s.rx.length < 8 → rx.length < 8) : Inv (tookIn s rest rx) :=
  { h with partialWord := hrx h.partialWord }

theorem Inv.writeResponse {s : State} (h : Inv s) (r : Response) : Inv (writeResponse r s) := { h with }

theorem Inv.setGie {s : State} (h : Inv s) (v : Bool) : Inv (setGie v s) := { h with }

theorem Inv.setMatchFlag {s : State} (h : Inv s) (ch : Ch) (v : Bool) : Inv (setMatchFlag ch v s) := { h with }

theorem Inv.writeCompare {s : State} (h : Inv s) (ch : Ch) (v : Half) : Inv (writeCompare ch v s) := { h with }

theorem Inv.drawn {s : State} (h : Inv s) (n : Nat) : Inv { s with draws := n } := { h with }

/-! ## The timer -/

theorem sel_ne_zero {k : Sel} (h : 1 ≤ k.toNat) : k ≠ 0 := by
  rintro rfl
  exact absurd h (by decide)

/-- Installing a legal configuration with its registers keeps the invariants when the clock becomes the new prescaler,
or stays stopped (41_waveform.md R114). -/
theorem Inv.installConfig {s : State} (h : Inv s) {psel k : Sel} {top : Half} (m : Mode)
    (hlegal : 1 ≤ psel.toNat ∧ psel.toNat ≤ s.params.prescalers.length ∧ 1 ≤ top.toNat ∧ top.toNat ≤ counterMax)
    (hk : k = psel ∨ s.tclk = 0 ∧ k = 0) :
    Inv (setPrescaler k (installConfig psel top m (writeTop top (setMode m s)))) :=
  { h with
    trainClocked := fun hr => by
      obtain rfl | ⟨h0, -⟩ := hk
      · exact sel_ne_zero hlegal.1
      · exact absurd h0 (h.trainClocked hr)
    trainConfigured := fun _ => rfl
    configLegal := fun _ => hlegal
    clockInList := by
      obtain rfl | ⟨-, rfl⟩ := hk
      · exact hlegal.2.1
      · exact Nat.zero_le _
    timerConfigured := fun _ => ⟨rfl, rfl⟩
    clockIsConfigured := fun h0 => ⟨rfl, hk.resolve_right fun e => h0 e.2⟩ }

theorem Inv.configWrites {s : State} (h : Inv s) (ch : Ch) (m : Mode) (p : Policy) {psel : Sel} {top : Half}
    (run : Bool) (hsel : selectorOk s.params psel = true) (htop : top ≠ 0) :
    Inv (configWrites ch m p psel top run s) := by
  obtain ⟨hpos, hlen⟩ := (selectorOk_iff _ _).1 hsel
  have hlegal : 1 ≤ psel.toNat ∧ psel.toNat ≤ s.params.prescalers.length ∧ 1 ≤ top.toNat ∧ top.toNat ≤ counterMax :=
    ⟨hpos, hlen, (half_ne_zero_iff top).1 htop, Nat.le_of_lt_succ top.isLt⟩
  have htimer :
      Inv (retimeTimer psel run (Machine.installConfig psel top m (writeTop top (setMode m s)))) := by
    unfold retimeTimer
    split
    · exact h.installConfig m hlegal (.inl rfl)
    · rename_i hrun
      have h0 : s.tclk = 0 := by simpa using (not_or.1 hrun).2
      have hstopped := h.installConfig (k := s.tclk) m hlegal (.inr ⟨h0, h0⟩)
      exact hstopped
  unfold Machine.configWrites
  dsimp only
  split
  · exact htimer.unbindPin ch
  · exact htimer.bindPin ch p

theorem Inv.pwmWrites {s : State} (h : Inv s) (ch : Ch) (m : SignalMode) {k : Sel} {top : Half} (c : Half)
    (hlegal : 1 ≤ k.toNat ∧ k.toNat ≤ s.params.prescalers.length ∧ 1 ≤ top.toNat ∧ top.toNat ≤ counterMax) :
    Inv (pwmWrites ch m k top c s) :=
  ((h.writeCompare ch c).installConfig (timerMode m) hlegal (.inl rfl)).bindPin ch .nonInverting

/-! ## The train -/

/-- Preemption disables the active channel's interrupt and no other. -/
theorem preemptOther_ocie_get (ch c : Ch) (s : State) :
    (preemptOther ch s).ocie.get c =
      if (s.seq.remaining ≠ 0 ∧ s.seq.active ≠ ch) ∧ c = s.seq.active then false else s.ocie.get c := by
  rw [preemptOther_eq]
  by_cases h : s.seq.remaining ≠ 0 ∧ s.seq.active ≠ ch
  · rw [if_pos h, get_put]
    exact if_congr (and_iff_right h).symm rfl rfl
  · rw [if_neg h, if_neg fun hc => h hc.1]

/-- After preemption by a TRAIN on `ch` no other channel's interrupt is enabled. -/
theorem Inv.preempted_ocie {s : State} (h : Inv s) {ch c : Ch} (hc : c ≠ ch) :
    (preemptOther ch s).ocie.get c = false := by
  rw [preemptOther_ocie_get]
  split
  · rfl
  · rename_i hno
    rw [← Bool.not_eq_true, h.enabledIffActive]
    rintro ⟨hr, rfl⟩
    exact hno ⟨⟨hr, hc⟩, rfl⟩

/-- A configured machine with a train of `r` services armed on `ch` and the interrupt enabled there alone. -/
theorem Inv.armed {s : State} (h : Inv s) {ch : Ch} {v0 v1 r : Half} {ocr : PerCh Half} {ocf ocie : PerCh Bool}
    (hr : r ≠ 0) (hfit : r.toNat ≤ s.params.remMax) (hvalid : s.cfg.valid = true)
    (hocie : ∀ c, ocie.get c = true ↔ ch = c) :
    Inv { s with seq := ⟨v0, v1, r, ch⟩, ocr := ocr, ocf := ocf, ocie := ocie, tclk := s.cfg.psel } :=
  { h with
    enabledIffActive := fun c => (hocie c).trans (iff_and_self.2 fun _ => hr)
    trainClocked := fun _ => sel_ne_zero (h.configLegal hvalid).1
    trainConfigured := fun _ => hvalid
    clockInList := (h.configLegal hvalid).2.1
    counterFits := hfit
    clockIsConfigured := fun _ => ⟨hvalid, rfl⟩ }

theorem Inv.trainWrites {s : State} (h : Inv s) (ch : Ch) {n : Half} (d1 d2 : Byte) (hn : n ≠ 0)
    (hfit : 2 * n.toNat ≤ s.params.remMax) (hvalid : s.cfg.valid = true) : Inv (trainWrites ch n d1 d2 s) := by
  have hn1 := (half_ne_zero_iff n).1 hn
  have hcount : (BitVec.ofNat 16 (2 * n.toNat) : Half).toNat = 2 * n.toNat :=
    toNat_half (hfit.trans (admitted_remMax_range _).2)
  have hr : (BitVec.ofNat 16 (2 * n.toNat) : Half) ≠ 0 := (half_ne_zero_iff _).2 (by omega)
  have hocie (c : Ch) : ((preemptOther ch s).ocie.put ch true).get c = true ↔ ch = c := by
    by_cases hc : c = ch
    · simp [hc]
    · simp [hc, h.preempted_ocie hc, Ne.symm hc]
  rw [trainWrites_eq]
  by_cases hp : s.seq.remaining ≠ 0 ∧ s.seq.active ≠ ch
  · rw [preemptOther_eq, if_pos hp] at hocie ⊢
    exact (h.shutDownPin s.seq.active).armed hr (hcount.trans_le hfit) hvalid hocie
  · rw [preemptOther_eq, if_neg hp] at hocie ⊢
    exact h.armed hr (hcount.trans_le hfit) hvalid hocie

/-- An idle sequencer with the timer stopped and no interrupt enabled: the end of a train and STOP. -/
theorem Inv.idle {s : State} (h : Inv s) {ocie : PerCh Bool} (hocie : ∀ c, ocie.get c = false) :
    Inv { s with seq := { s.seq with remaining := 0 }, ocie := ocie, tclk := 0 } :=
  { h with
    enabledIffActive := fun c => by simp [hocie c]
    trainClocked := fun hr => absurd rfl hr
    trainConfigured := fun hr => absurd rfl hr
    clockInList := Nat.zero_le _
    counterFits := Nat.zero_le _
    clockIsConfigured := fun h0 => absurd rfl h0 }

theorem Inv.stopWrites {s : State} (h : Inv s) : Inv (stopWrites s) := by
  have hoff (c : Ch) : (PerCh.mk false false).get c = false := by cases c <;> rfl
  rw [stopWrites_eq]
  split
  · exact (h.shutDownPin s.seq.active).idle hoff
  · exact h.idle hoff

/-- A service that is not the last leaves a running train with one service fewer. -/
theorem Inv.served {s : State} (h : Inv s) (hr : s.seq.remaining ≠ 0) (hr' : s.seq.remaining - 1 ≠ 0) :
    Inv { s with seq := { s.seq with remaining := s.seq.remaining - 1 } } :=
  { h with
    enabledIffActive := fun c => (h.enabledIffActive c).trans (and_congr_left fun _ => iff_of_true hr hr')
    trainClocked := fun _ => h.trainClocked hr
    trainConfigured := fun _ => h.trainConfigured hr
    counterFits := by
      have hpred := toNat_half_pred hr
      have hfit := h.counterFits
      show (s.seq.remaining - 1).toNat ≤ s.params.remMax
      omega }

theorem Inv.serviceChannel {s : State} (h : Inv s) (ch : Ch) : Inv (serviceChannel ch s) := by
  have hack := h.setMatchFlag ch false
  rw [serviceChannel_eq]
  split
  · rename_i hrun
    obtain ⟨hr, rfl⟩ := hrun
    split
    · have hoff (c : Ch) : (s.ocie.put s.seq.active false).get c = false := by
        rw [get_put]
        split
        · rfl
        · rename_i hc
          rw [← Bool.not_eq_true, h.enabledIffActive]
          exact fun hact => hc hact.2.symm
      exact (hack.shutDownPin s.seq.active).idle hoff
    · rename_i hr'
      exact (hack.served hr hr').writeCompare s.seq.active _
  · exact hack

theorem Inv.matchChannel {s : State} (h : Inv s) (ch : Ch) : Inv (matchChannel ch s) := by
  have e : Machine.matchChannel ch s =
      Machine.writePin ch (s.pol.get ch) (matchLevel (s.pol.get ch) (s.pinlvl.get ch)) (s.pindir.get ch)
        (Machine.setMatchFlag ch true s) := by
    simp [matchChannel_eq, Machine.writePin, put_get, Machine.setMatchFlag]
  rw [e]
  exact (h.setMatchFlag ch true).writePin ch ⟨matchLevel_of_pwm _, h.boundIsOutput ch⟩

/-! ## The narrower bus -/

/-- The bytes of a response word the host has and those it can still take make one word (20_memory.md R54). -/
theorem Inv.responseBytes_length {s : State} (h : Inv s) (hne : responseBytes s ≠ []) :
    (responseBytes s).length + s.hostRx.length = 8 := by
  obtain ⟨htx, hrx⟩ | ⟨htx, -, hsum⟩ := h.partialResponse
  · obtain ⟨w, hw⟩ : ∃ w, s.rsp = some w := by
      rw [responseBytes_ne_nil_iff] at hne
      exact Option.ne_none_iff_exists'.1 (hne.resolve_left fun h => h htx)
    simp [responseBytes_some htx hw, bytesOfWord, hrx]
  · rw [responseBytes_latched (List.length_pos_iff.1 htx)]
    exact hsum

theorem Inv.sendByte {s : State} (h : Inv s) : Inv (sendByte s) := by
  cases hb : responseBytes s with
  | nil =>
    rw [Machine.sendByte, hb]
    exact h
  | cons b rest =>
    have hsum := h.responseBytes_length (by simp [hb])
    rw [hb, List.length_cons] at hsum
    by_cases hl : s.hostRx.length < 7
    · rw [sendByte_partial hb hl]
      refine { h with partialResponse := .inr ?_ }
      simp only [List.length_append, List.length_singleton]
      omega
    · rw [sendByte_last hb hl]
      have hrest : rest.length = 0 := by omega
      exact { h with partialResponse := .inl ⟨List.length_eq_zero_iff.1 hrest, rfl⟩ }

/-! ## Operations and steps -/

theorem CommandWrites.inv {s u : State} {i : Instr} (hu : CommandWrites s i u) (h : Inv s) : Inv u := by
  cases hu with
  | nothing => exact h
  | draw _ n => exact h.drawn n
  | config _ _ hsel htop => exact h.configWrites _ _ _ _ hsel htop
  | disconnect ch => exact h.unbindPin ch
  | bypass => exact h.bypassWrites _ _
  | pwm _ _ _ hsolve => exact h.pwmWrites _ _ _ (solved_configLegal hsolve)
  | train hn _ _ hfit hvalid _ => exact h.trainWrites _ _ _ hn hfit hvalid
  | stop => exact h.stopWrites
  | gieon => exact h.setGie true
  | gieoff => exact h.setGie false

theorem StepKind.inv {s t : State} (ht : StepKind s t) (h : Inv s) : Inv t := by
  cases ht with
  | quiet rest rx hrx => exact h.tookIn rest hrx
  | illegal rest rx hrx => exact (h.tookIn rest hrx).writeResponse _
  | command rest rx r hrx _ hwrites => exact (hwrites.inv (h.tookIn rest hrx)).writeResponse r
  | compareMatch => exact (h.tookIn _ id).matchChannel _
  | service => exact (h.tookIn _ id).serviceChannel _
  | busRead rest => exact (h.tookIn rest id).sendByte

/-- Settles O57: each kind of step keeps the invariants. -/
theorem stepKeepsTheInvariants : Obligations.StepKeepsTheInvariants := fun _ _ h hstep => (step_kind hstep).inv h

/-- Settles O56: at reset nothing runs, nothing is bound and nothing is on its way, so most clauses have a false
premise. -/
theorem invariantsHoldAtReset : Obligations.InvariantsHoldAtReset := by
  intro c u
  have hoff (ch : Ch) : (PerCh.mk false false).get ch = false := by cases ch <;> rfl
  have hunbound (ch : Ch) : (PerCh.mk Policy.disconnected .disconnected).get ch = .disconnected := by cases ch <;> rfl
  exact
    { enabledIffActive := fun ch => by simp [State.resetOf, hoff]
      trainClocked := fun hr => absurd rfl hr
      trainConfigured := fun hr => absurd rfl hr
      configLegal := fun hv => nomatch hv
      clockInList := Nat.zero_le _
      counterFits := Nat.zero_le _
      timerConfigured := fun hv => nomatch hv
      clockIsConfigured := fun hk => absurd rfl hk
      pwmLevelUndefined := fun ch => by simp [State.resetOf, hunbound, policyIsPwm]
      boundIsOutput := fun ch hb => absurd (hunbound ch) hb
      partialWord := Nat.succ_pos 7
      partialResponse := .inl ⟨rfl, rfl⟩ }

end Sys2Proof.Machine
end

section
/-! PROOF. Which steps write `S.GIE`, `S.OCIE`, `S.OCF`, `S.PINDIR` and `S.CFG.valid` (10_state.md R35 to R37, R40,
R23): the frame of each compound write, then of the writes of an operation, then of a step. -/

namespace Sys2Proof.Machine

/-! ## The compound writes -/

@[simp] theorem unbindPin_frame (ch : Ch) (s : State) :
    (unbindPin ch s).gie = s.gie ∧ (unbindPin ch s).ocie = s.ocie ∧ (unbindPin ch s).ocf = s.ocf ∧
      (unbindPin ch s).pindir = s.pindir ∧ (unbindPin ch s).cfg = s.cfg := by
  simp [unbindPin_eq]

@[simp] theorem bypassWrites_frame (ch : Ch) (level : Bool) (s : State) :
    (bypassWrites ch level s).gie = s.gie ∧ (bypassWrites ch level s).ocie = s.ocie ∧
      (bypassWrites ch level s).ocf = s.ocf ∧ (bypassWrites ch level s).pindir = s.pindir.put ch true ∧
      (bypassWrites ch level s).cfg = s.cfg :=
  ⟨rfl, rfl, rfl, rfl, rfl⟩

@[simp] theorem pwmWrites_frame (ch : Ch) (m : SignalMode) (k : Sel) (top c : Half) (s : State) :
    (pwmWrites ch m k top c s).gie = s.gie ∧ (pwmWrites ch m k top c s).ocie = s.ocie ∧
      (pwmWrites ch m k top c s).ocf = s.ocf ∧ (pwmWrites ch m k top c s).pindir = s.pindir.put ch true ∧
      (pwmWrites ch m k top c s).cfg.valid = true :=
  ⟨rfl, rfl, rfl, rfl, rfl⟩

@[simp] theorem configWrites_frame (ch : Ch) (m : Mode) (p : Policy) (psel : Sel) (top : Half) (run : Bool)
    (s : State) :
    (configWrites ch m p psel top run s).gie = s.gie ∧ (configWrites ch m p psel top run s).ocie = s.ocie ∧
      (configWrites ch m p psel top run s).ocf = s.ocf ∧
      (configWrites ch m p psel top run s).pindir =
        (if p = .disconnected then s.pindir else s.pindir.put ch true) ∧
      (configWrites ch m p psel top run s).cfg.valid = true := by
  simp [configWrites_eq]

@[simp] theorem preemptOther_frame (ch : Ch) (s : State) :
    (preemptOther ch s).gie = s.gie ∧ (preemptOther ch s).pindir = s.pindir ∧ (preemptOther ch s).cfg = s.cfg := by
  rw [preemptOther_eq]
  split <;> exact ⟨rfl, rfl, rfl⟩

@[simp] theorem trainWrites_frame (ch : Ch) (n : Half) (d1 d2 : Byte) (s : State) :
    (trainWrites ch n d1 d2 s).gie = s.gie ∧ (trainWrites ch n d1 d2 s).ocf = s.ocf.put ch false ∧
      (trainWrites ch n d1 d2 s).pindir = s.pindir ∧ (trainWrites ch n d1 d2 s).cfg = s.cfg := by
  simp [trainWrites_eq]

@[simp] theorem stopWrites_frame (s : State) :
    (stopWrites s).gie = s.gie ∧ (stopWrites s).ocie = { a := false, b := false } ∧ (stopWrites s).ocf = s.ocf ∧
      (stopWrites s).pindir = s.pindir ∧ (stopWrites s).cfg = s.cfg := by
  simp [stopWrites_eq]

@[simp] theorem matchChannel_frame (ch : Ch) (s : State) :
    (matchChannel ch s).gie = s.gie ∧ (matchChannel ch s).ocie = s.ocie ∧
      (matchChannel ch s).ocf = s.ocf.put ch true ∧ (matchChannel ch s).pindir = s.pindir ∧
      (matchChannel ch s).cfg = s.cfg :=
  ⟨rfl, rfl, rfl, rfl, rfl⟩

@[simp] theorem serviceChannel_frame (ch : Ch) (s : State) :
    (serviceChannel ch s).gie = s.gie ∧ (serviceChannel ch s).ocf = s.ocf.put ch false ∧
      (serviceChannel ch s).pindir = s.pindir ∧ (serviceChannel ch s).cfg = s.cfg := by
  rw [serviceChannel_eq]
  split
  · split <;> exact ⟨rfl, rfl, rfl, rfl⟩
  · exact ⟨rfl, rfl, rfl, rfl⟩

@[simp] theorem sendByte_spec (s : State) :
    (sendByte s).gie = s.gie ∧ (sendByte s).ocie = s.ocie ∧ (sendByte s).ocf = s.ocf ∧
      (sendByte s).pindir = s.pindir ∧ (sendByte s).cfg = s.cfg := by
  obtain ⟨x, h, r, e⟩ := sendByte_frame s
  rw [e]
  exact ⟨rfl, rfl, rfl, rfl, rfl⟩

@[simp] theorem refusedAs_frame (e : Err) (s : State) :
    (refusedAs e s).gie = s.gie ∧ (refusedAs e s).ocie = s.ocie ∧ (refusedAs e s).ocf = s.ocf ∧
      (refusedAs e s).pindir = s.pindir ∧ (refusedAs e s).cfg = s.cfg :=
  ⟨rfl, rfl, rfl, rfl, rfl⟩

/-! ## The global interrupt enable (R37) -/

theorem CommandWrites.gie {s u : State} {i : Instr} (hu : CommandWrites s i u) :
    u.gie = s.gie ∨ (i = .gieon ∧ u.gie = true) ∨ (i = .gieoff ∧ u.gie = false) := by
  cases hu with
  | gieon => exact .inr (.inl ⟨rfl, rfl⟩)
  | gieoff => exact .inr (.inr ⟨rfl, rfl⟩)
  | _ => exact .inl (by simp)

/-- Settles O50: of the kinds of step only an operation writes the enable, and of the operations only GIEON and
GIEOFF. -/
theorem onlyGieCommandsChangeTheEnable : Obligations.OnlyGieCommandsChangeTheEnable := by
  intro s t hstep hne
  cases step_kind hstep with
  | command rest rx r _ hissued hwrites =>
    obtain hsame | ⟨rfl, hon⟩ | ⟨rfl, hoff⟩ := hwrites.gie
    · exact absurd hsame hne
    · exact .inl ⟨hissued, hon⟩
    · exact .inr ⟨hissued, hoff⟩
  | _ => exact absurd (by simp) hne

/-! ## Flags with named writers -/

/-- A flag that is after the step what it was, or is set by one of `P`, or cleared by one of `Q`: it is set only by
`P` and cleared only by `Q`. -/
theorem flag_writers {before after : Bool} {P Q : Prop}
    (h : after = before ∨ (after = true ∧ P) ∨ (after = false ∧ Q)) :
    (before = false → after = true → P) ∧ (before = true → after = false → Q) := by
  obtain rfl | ⟨rfl, hset⟩ | ⟨rfl, hcleared⟩ := h
  · exact ⟨fun h0 h1 => absurd (h0.symm.trans h1) Bool.false_ne_true,
      fun h1 h0 => absurd (h0.symm.trans h1) Bool.false_ne_true⟩
  · exact ⟨fun _ _ => hset, nofun⟩
  · exact ⟨nofun, fun _ _ => hcleared⟩

/-! ## The compare-match interrupt enables (R35) -/

theorem trainWrites_ocie_get (ch c : Ch) (n : Half) (d1 d2 : Byte) (s : State) :
    (trainWrites ch n d1 d2 s).ocie.get c = if c = ch then true else (preemptOther ch s).ocie.get c := by
  rw [trainWrites_eq]
  exact get_put _ _ _ _

/-- A service writes no enable but its own channel's, and can only clear that one. -/
theorem serviceChannel_ocie_get (ch c : Ch) (s : State) :
    (serviceChannel ch s).ocie.get c = s.ocie.get c ∨ (serviceChannel ch s).ocie.get c = false ∧ c = ch := by
  rw [serviceChannel_eq]
  split
  · split
    · by_cases hc : c = ch
      · exact .inr ⟨by simp [hc], hc⟩
      · exact .inl (get_put_other _ _ hc)
    · exact .inl rfl
  · exact .inl rfl

theorem CommandWrites.ocie {s u : State} {i : Instr} (hu : CommandWrites s i u) (c : Ch) :
    u.ocie.get c = s.ocie.get c ∨ (u.ocie.get c = true ∧ ∃ n d1 d2, i = .train c n d1 d2) ∨
      (u.ocie.get c = false ∧ ((∃ n d1 d2, i = .train c.other n d1 d2) ∨ i = .stop)) := by
  cases hu with
  | @train ch n d1 d2 =>
    rw [trainWrites_ocie_get]
    by_cases hc : c = ch
    · exact .inr (.inl ⟨if_pos hc, n, d1, d2, by rw [hc]⟩)
    · have hother : ch = c.other := (ne_iff_eq_other ch c).1 (Ne.symm hc)
      rw [if_neg hc, preemptOther_ocie_get]
      split
      · exact .inr (.inr ⟨rfl, .inl ⟨n, d1, d2, by rw [hother]⟩⟩)
      · exact .inl rfl
  | stop => exact .inr (.inr ⟨by cases c <;> simp [PerCh.get], .inr rfl⟩)
  | _ => exact .inl (by simp)

/-- Settles O51: an operation writes the enables as `CommandWrites.ocie` says, a service clears its own channel's, no
other step writes them. -/
theorem interruptEnableHasItsWriters : Obligations.InterruptEnableHasItsWriters := by
  intro s t c hstep
  apply flag_writers
  cases step_kind hstep with
  | command rest rx r _ hissued hwrites =>
    obtain hsame | ⟨hon, n, d1, d2, rfl⟩ | ⟨hoff, ⟨n, d1, d2, rfl⟩ | rfl⟩ := hwrites.ocie c
    · exact .inl hsame
    · exact .inr (.inl ⟨hon, n, d1, d2, hissued⟩)
    · exact .inr (.inr ⟨hoff, .inl ⟨n, d1, d2, hissued⟩⟩)
    · exact .inr (.inr ⟨hoff, .inr (.inl hissued)⟩)
  | @service ch rest hnext _ =>
    obtain hsame | ⟨hoff, rfl⟩ := serviceChannel_ocie_get ch c (tookIn s rest s.rx)
    · exact .inl hsame
    · exact .inr (.inr ⟨hoff, .inr (.inr ⟨rest, hnext⟩)⟩)
  | _ => exact .inl (by simp)

/-! ## The pending flags (R36) -/

theorem CommandWrites.ocf {s u : State} {i : Instr} (hu : CommandWrites s i u) (c : Ch) :
    u.ocf.get c = s.ocf.get c ∨ (u.ocf.get c = false ∧ ∃ n d1 d2, i = .train c n d1 d2) := by
  cases hu with
  | @train ch n d1 d2 =>
    by_cases hc : c = ch
    · exact .inr ⟨by simp [hc], n, d1, d2, by rw [hc]⟩
    · exact .inl (by simp [hc])
  | _ => exact .inl (by simp)

/-- Settles O52: a match sets its own channel's flag, a service clears its own, TRAIN clears its own, no other step
writes them. -/
theorem pendingFlagHasItsWriters : Obligations.PendingFlagHasItsWriters := by
  intro s t c hstep
  apply flag_writers
  cases step_kind hstep with
  | command rest rx r _ hissued hwrites =>
    obtain hsame | ⟨hoff, n, d1, d2, rfl⟩ := hwrites.ocf c
    · exact .inl hsame
    · exact .inr (.inr ⟨hoff, .inl ⟨n, d1, d2, hissued⟩⟩)
  | @compareMatch ch rest hnext _ =>
    by_cases hc : c = ch
    · subst hc
      exact .inr (.inl ⟨by simp, rest, hnext⟩)
    · exact .inl (by simp [hc])
  | @service ch rest hnext _ =>
    by_cases hc : c = ch
    · subst hc
      exact .inr (.inr ⟨by simp, .inr ⟨rest, hnext⟩⟩)
    · exact .inl (by simp [hc])
  | _ => exact .inl (by simp)

/-! ## Directions and the configuration (R40, R23) -/

/-- Setting a pin's direction to output keeps every pin that is one. -/
theorem get_put_true {p : PerCh Bool} (ch : Ch) {c : Ch} (h : p.get c = true) : (p.put ch true).get c = true := by
  rw [get_put]
  split
  · rfl
  · exact h

theorem CommandWrites.pindir {s u : State} {i : Instr} (hu : CommandWrites s i u) {c : Ch}
    (h : s.pindir.get c = true) : u.pindir.get c = true := by
  cases hu with
  | @config _ _ _ _ _ _ _ p => by_cases hp : p = .disconnected <;> simp [hp, h, get_put_true]
  | _ => simp [h, get_put_true]

theorem CommandWrites.valid {s u : State} {i : Instr} (hu : CommandWrites s i u) (h : s.cfg.valid = true) :
    u.cfg.valid = true := by
  cases hu <;> simp [h]

/-- Settles O53: only an operation writes them, and it only sets them. -/
theorem directionAndConfigurationStay : Obligations.DirectionAndConfigurationStay := by
  intro s t c hstep
  cases step_kind hstep with
  | command rest rx r _ _ hwrites => exact ⟨hwrites.pindir, hwrites.valid⟩
  | _ => simp

/-! ## PINSTAT (41_waveform.md R127) -/

theorem pinStatus_toNat (p : Policy) (output level : Bool) :
    (pinStatus p output level).toNat =
      (policyCode p).toNat * 4 + (if output then 2 else 0) + (if level then 1 else 0) := by
  cases p <;> cases output <;> cases level <;> rfl

/-- A pin read in one statement: it answers a defined level, and counts a draw exactly when the level is `X`
(10_state.md R39). -/
theorem readLevel_spec (ch : Ch) (s : State) :
    ∃ v, readLevel ch s = (v, { s with draws := if s.pinlvl.get ch = .X then s.draws + 1 else s.draws }) ∧
      (s.pinlvl.get ch = .low → v = false) ∧ (s.pinlvl.get ch = .high → v = true) := by
  obtain ⟨v, hlevel, hread⟩ | ⟨hX, hread⟩ := readLevel_cases ch s
  · have hdefined : s.pinlvl.get ch ≠ .X := by cases v <;> simp [hlevel, levelOfBool]
    refine ⟨v, by rw [hread, if_neg hdefined], ?_⟩
    cases v <;> simp [hlevel, levelOfBool]
  · exact ⟨_, by rw [hread, if_pos hX], by simp [hX], by simp [hX]⟩

/-- Settles O34: PINSTAT answers a pin read made inside the critical section, which puts `S.GIE` back. -/
theorem pinstatReportsThePin : Obligations.PinstatReportsThePin := by
  intro ch s
  obtain ⟨v, hread, hlow, hhigh⟩ := readLevel_spec ch (setGie false s)
  refine ⟨v, pinStatus (s.pol.get ch) (s.pindir.get ch) v, ?_, hlow, hhigh, pinStatus_toNat _ _ _⟩
  simp only [exec, execPinstat, critical, hread]
  rfl

/-! ## Reset (R45) -/

/-- Settles O55: the flags, pins and counters are R45's constants, no move is enabled because the timer is stopped and
interrupts are masked, and the selector and top are legal by `ResetContents`. -/
theorem resetIsIdleAndDisconnected : Obligations.ResetIsIdleAndDisconnected := by
  intro c u ch s
  have hmatch : moveEnabled (.compareMatch ch) s = false := rfl
  have hservice : moveEnabled (.service ch) s = false := by cases ch <;> rfl
  cases ch <;>
    exact ⟨rfl, rfl, rfl, rfl, rfl, rfl, rfl, rfl, rfl, hmatch, hservice, u.pselLegal.1, u.pselLegal.2, u.topLegal⟩

end Sys2Proof.Machine
end

section
/-! PROOF. When a move is made, and what a step is for each scheduled move (20_memory.md R51, R54). -/

namespace Sys2Proof.Machine

/-! ## Enabled moves -/

theorem irqRequested_iff (ch : Ch) (s : State) :
    irqRequested ch s = true ↔ s.gie = true ∧ s.ocie.get ch = true ∧ s.ocf.get ch = true := by
  simp [irqRequested, and_assoc]

/-- Which moves are scheduled does not enable or disable a move. -/
theorem moveEnabled_rescheduled (e : Event) (s : State) (rest : List Event) :
    moveEnabled e { s with schedule := rest } = moveEnabled e s := by
  cases e with
  | service ch => cases ch <;> rfl
  | _ => rfl

theorem takeMove_disabled {e : Event} {s : State} (h : ¬moveEnabled e s = true) :
    takeMove e s = .refused (.notEnabled e) := by
  rw [takeMove, if_neg h]

/-- A move is made exactly when it is enabled. -/
theorem takeMove_answers_iff (e : Event) (s : State) : (∃ t, takeMove e s = .next t) ↔ moveEnabled e s = true := by
  by_cases h : moveEnabled e s = true
  · rw [takeMove_enabled h]
    exact iff_of_true (performMove_answers e s) h
  · rw [takeMove_disabled h]
    exact iff_of_false (fun ⟨_, ht⟩ => nomatch ht) h

/-- A move that was made is what its agent does. -/
theorem performMove_of_takeMove {e : Event} {s t : State} (h : takeMove e s = .next t) :
    performMove e s = .next t := by
  rwa [← takeMove_enabled ((takeMove_answers_iff e s).1 ⟨t, h⟩)]

theorem step_answers_iff {s : State} {e : Event} {rest : List Event} (hs : s.schedule = e :: rest) :
    (∃ t, step s = .next t) ↔ moveEnabled e s = true := by
  rw [step_cons hs, takeMove_answers_iff, moveEnabled_rescheduled]

theorem step_refused {s : State} {e : Event} {rest : List Event} (hs : s.schedule = e :: rest)
    (h : ¬moveEnabled e s = true) : step s = .refused (.notEnabled e) := by
  rw [step_cons hs, takeMove_disabled (by rwa [moveEnabled_rescheduled])]

/-- Settles O8: a step answers exactly when its move is enabled, and `moveEnabled` is R51's condition for each move. -/
theorem stepMakesExactlyTheEnabledMoves : Obligations.StepMakesExactlyTheEnabledMoves := by
  intro s e rest hs
  rw [step_answers_iff hs]
  refine ⟨?_, step_refused hs⟩
  cases e with
  | host cmd => exact iff_of_true rfl trivial
  | busByte b => exact iff_of_true rfl trivial
  | busRead => exact decide_eq_true_iff.trans (responseBytes_ne_nil_iff s)
  | compareMatch ch => exact decide_eq_true_iff
  | service ch =>
    have hA := irqRequested_iff .A s
    cases ch with
    | A => exact hA
    | B =>
      have hB := irqRequested_iff .B s
      simp only [moveEnabled, serviceEnabled, Bool.and_eq_true, Bool.not_eq_true', ← Bool.not_eq_true, hA, hB,
        and_assoc]
      rfl

/-! ## The step of a command word -/

theorem step_host {s : State} {cmd : Word} {rest : List Event} (hs : s.schedule = .host cmd :: rest) :
    step s = hostCommand cmd { s with schedule := rest } :=
  (step_cons hs).trans (takeMove_enabled rfl)

theorem hostCommand_of_decode {cmd : Word} {i : Instr} (h : decode cmd = .ok i) (s : State) :
    hostCommand cmd s = exec i s := by
  rw [hostCommand, h]

/-- Settles O6: an enabled host move is `hostCommand`, which runs what the word decodes to. -/
theorem stepRunsTheDecodedOperation : Obligations.StepRunsTheDecodedOperation := by
  intro s w i rest hs hi
  rw [step_host hs, hostCommand_of_decode hi]

/-! ## The step of one byte -/

theorem step_busByte_partial {s : State} {b : Byte} {rest : List Event} (hs : s.schedule = .busByte b :: rest)
    (hl : s.rx.length < 7) : step s = .next { s with schedule := rest, rx := s.rx ++ [b] } :=
  (step_cons hs).trans ((takeMove_enabled rfl).trans (if_pos hl))

theorem step_busByte_last {s : State} {b : Byte} {rest : List Event} (hs : s.schedule = .busByte b :: rest)
    (hl : ¬s.rx.length < 7) :
    step s = hostCommand (wordOfBytes (s.rx ++ [b])) { s with schedule := rest, rx := [] } :=
  (step_cons hs).trans ((takeMove_enabled rfl).trans (if_neg hl))

theorem step_busRead {s : State} {rest : List Event} (hs : s.schedule = .busRead :: rest)
    (hne : responseBytes s ≠ []) : step s = .next (sendByte { s with schedule := rest }) :=
  (step_cons hs).trans (takeMove_enabled (decide_eq_true hne))

/-! ## The step of an issued operation -/

/-- A step that receives the last bit of a command word is that command. -/
theorem step_of_issuedWord {s : State} {w : Word} (h : issuedWord s = some w) :
    ∃ rest rx, step s = hostCommand w (tookIn s rest rx) := by
  unfold issuedWord at h
  split at h
  · rename_i cmd rest hs
    cases h
    exact ⟨rest, s.rx, step_host hs⟩
  · rename_i b rest hs
    split at h
    · cases h
    · rename_i hl
      cases h
      exact ⟨rest, [], step_busByte_last hs hl⟩
  · cases h

theorem issuedInstr_eq_some {s : State} {i : Instr} (h : issuedInstr s = some i) :
    ∃ w, issuedWord s = some w ∧ decode w = .ok i := by
  unfold issuedInstr at h
  split at h
  · cases h
  · rename_i w hw
    split at h
    · rename_i j hj
      cases h
      exact ⟨w, hw, hj⟩
    · cases h

theorem step_of_issuedInstr {s : State} {i : Instr} (h : issuedInstr s = some i) :
    ∃ rest rx, step s = exec i (tookIn s rest rx) := by
  obtain ⟨w, hw, hi⟩ := issuedInstr_eq_some h
  obtain ⟨rest, rx, hstep⟩ := step_of_issuedWord hw
  exact ⟨rest, rx, by rw [hstep, hostCommand_of_decode hi]⟩

end Sys2Proof.Machine
end

section
/-! PROOF. A word over a narrower bus (20_memory.md R54): after `k` bytes the receiver holds the first `k` bytes of the
word, for a command and for a response, and the eighth byte completes it. -/

namespace Sys2Proof.Machine

/-- The last of `k + 1` steps. -/
theorem runSteps_succ {k : Nat} {s t : State} (h : runSteps k s = .next t) : runSteps (k + 1) s = step t := by
  induction k generalizing s with
  | zero =>
    cases h
    simp only [runSteps]
    cases step t <;> rfl
  | succ k ih =>
    rw [runSteps] at h ⊢
    cases hstep : step s with
    | next u =>
      rw [hstep] at h
      exact ih h
    | fault r => simp [hstep] at h
    | refused r => simp [hstep] at h

@[simp] theorem length_bytesOfWord (w : Word) : (bytesOfWord w).length = 8 := rfl

/-- The byte that comes after the first `k` of a word. -/
theorem bytesOfWord_drop {w : Word} {k : Nat} (hk : k < 8) :
    ∃ b, (bytesOfWord w).drop k = b :: (bytesOfWord w).drop (k + 1) ∧
      (bytesOfWord w).take k ++ [b] = (bytesOfWord w).take (k + 1) :=
  ⟨(bytesOfWord w)[k]'hk, List.drop_eq_getElem_cons hk, List.take_append_getElem hk⟩

/-- The eight bytes of a word put together. -/
theorem wordOfBytes_take_eight (w : Word) : wordOfBytes ((bytesOfWord w).take 8) = w :=
  wordOfBytes_bytesOfWord w

/-! ## A command word -/

/-- The move scheduled after the first `k` bytes of a command word. -/
theorem busByte_schedule {w : Word} {rest : List Event} {k : Nat} (hk : k < 8) :
    ∃ b, ((bytesOfWord w).map Event.busByte ++ rest).drop k =
        .busByte b :: ((bytesOfWord w).map Event.busByte ++ rest).drop (k + 1) ∧
      (bytesOfWord w).take k ++ [b] = (bytesOfWord w).take (k + 1) := by
  obtain ⟨b, hdrop, htake⟩ := bytesOfWord_drop (w := w) hk
  refine ⟨b, ?_, htake⟩
  rw [List.drop_append_of_le_length (by simp; omega), List.drop_append_of_le_length (by simp; omega),
    ← List.map_drop, hdrop, List.map_cons, List.map_drop, List.cons_append]

/-- The first bytes of a command word are kept, and nothing else happens. -/
theorem runSteps_command_bytes {s : State} {w : Word} {rest : List Event} (hrx : s.rx = [])
    (hs : s.schedule = (bytesOfWord w).map .busByte ++ rest) {k : Nat} (hk : k ≤ 7) :
    runSteps k s = .next { s with schedule := s.schedule.drop k, rx := (bytesOfWord w).take k } := by
  induction k with
  | zero =>
    rw [List.drop_zero, List.take_zero, ← hrx]
    rfl
  | succ k ih =>
    obtain ⟨b, hdrop, htake⟩ := busByte_schedule (w := w) (rest := rest) (k := k) (by omega)
    rw [runSteps_succ (ih (by omega)), hs, step_busByte_partial hdrop (by simp; omega), htake]

/-- The eighth byte of a command word issues the word. -/
theorem runSteps_command_word {s : State} {w : Word} {rest : List Event} (hrx : s.rx = [])
    (hs : s.schedule = (bytesOfWord w).map .busByte ++ rest) :
    runSteps 8 s = hostCommand w { s with schedule := rest } := by
  obtain ⟨b, hdrop, htake⟩ := busByte_schedule (w := w) (rest := rest) (k := 7) (by omega)
  rw [runSteps_succ (runSteps_command_bytes hrx hs (le_refl 7)), hs, step_busByte_last hdrop (by simp), htake,
    wordOfBytes_take_eight, ← hrx]
  rfl

/-! ## A response word -/

/-- The move scheduled after `k` of eight takings of a byte. -/
theorem busRead_schedule (rest : List Event) {k : Nat} (hk : k < 8) :
    (List.replicate 8 Event.busRead ++ rest).drop k =
      .busRead :: (List.replicate 8 Event.busRead ++ rest).drop (k + 1) := by
  rw [List.drop_eq_getElem_cons (by simp; omega), List.getElem_append_left (by simpa using hk),
    List.getElem_replicate]

/-- The state in which the host has the first `k` bytes of a response word and the rest is latched. -/
def carrying (w : Word) (k : Nat) (s : State) : State :=
  { s with schedule := s.schedule.drop k, tx := (bytesOfWord w).drop k, hostRx := (bytesOfWord w).take k }

/-- The step that carries the byte after the first `k`, when it is not the last. -/
theorem step_busRead_next {s : State} {w : Word} {rest : List Event} {k : Nat} (hk : k < 7)
    (hs : s.schedule = .busRead :: rest) (hb : responseBytes s = (bytesOfWord w).drop k)
    (hrx : s.hostRx = (bytesOfWord w).take k) :
    step s = .next
      { s with schedule := rest, tx := (bytesOfWord w).drop (k + 1), hostRx := (bytesOfWord w).take (k + 1) } := by
  obtain ⟨b, hdrop, htake⟩ := bytesOfWord_drop (w := w) (k := k) (by omega)
  have hbytes := hb.trans hdrop
  have hsend := sendByte_partial (s := { s with schedule := rest }) hbytes (by simp [hrx]; omega)
  rw [step_busRead hs (by simp [hbytes]), hsend, hrx, htake]

/-- The step that carries the eighth byte: the host has the word. -/
theorem step_busRead_eighth {s : State} {w : Word} {rest : List Event} (hs : s.schedule = .busRead :: rest)
    (hb : responseBytes s = (bytesOfWord w).drop 7) (hrx : s.hostRx = (bytesOfWord w).take 7) :
    step s = .next { s with schedule := rest, tx := [], hostRx := [], hostRsp := some w } := by
  obtain ⟨b, hdrop, htake⟩ := bytesOfWord_drop (w := w) (k := 7) (by omega)
  have hbytes := hb.trans hdrop
  have hsend := sendByte_last (s := { s with schedule := rest }) hbytes (by simp [hrx])
  rw [step_busRead hs (by simp [hbytes]), hsend, hrx, htake, wordOfBytes_take_eight]
  rfl

theorem responseBytes_carrying {s : State} {w : Word} {k : Nat} (hk : k < 8) :
    responseBytes (carrying w k s) = (bytesOfWord w).drop k := by
  obtain ⟨b, hdrop, -⟩ := bytesOfWord_drop (w := w) hk
  exact responseBytes_latched (s := carrying w k s) (by simp [carrying, hdrop])

section
variable {s : State} {w : Word} {rest : List Event} (htx : s.tx = []) (hrx : s.hostRx = [])
  (hrsp : s.rsp = some w) (hs : s.schedule = List.replicate 8 .busRead ++ rest)
include htx hrx hrsp hs

/-- The first bytes of a response word are with the host, and it has no response yet. -/
theorem runSteps_response_bytes {k : Nat} (h1 : 1 ≤ k) (hk : k ≤ 7) : runSteps k s = .next (carrying w k s) := by
  induction k, h1 using Nat.le_induction with
  | base =>
    have hb : responseBytes s = bytesOfWord w := responseBytes_some htx hrsp
    have hnext : s.schedule = .busRead :: s.schedule.drop 1 := by rw [hs]; rfl
    rw [runSteps_succ (k := 0) (t := s) rfl]
    exact step_busRead_next (by omega) hnext hb hrx
  | succ k h1 ih =>
    have hb := responseBytes_carrying (s := s) (w := w) (k := k) (by omega)
    have hnext : (carrying w k s).schedule = .busRead :: s.schedule.drop (k + 1) := by
      rw [hs]
      exact (congrArg (List.drop k) hs).trans (busRead_schedule rest (by omega))
    rw [runSteps_succ (ih (by omega))]
    exact step_busRead_next (by omega) hnext hb rfl

/-- With the eighth byte the host has the response. -/
theorem runSteps_response_word : runSteps 8 s = .next { s with schedule := rest, hostRsp := some w } := by
  have hb := responseBytes_carrying (s := s) (w := w) (k := 7) (by omega)
  have hnext : (carrying w 7 s).schedule = .busRead :: rest :=
    (congrArg (List.drop 7) hs).trans (busRead_schedule rest (by omega))
  rw [runSteps_succ (runSteps_response_bytes htx hrx hrsp hs (by omega) (le_refl 7)),
    step_busRead_eighth hnext hb rfl]
  simp only [carrying, htx, hrx]

end

/-- Settles O10: by induction on the bytes carried, for each direction; the eighth byte completes the word. -/
theorem eightBusBytesAreOneCommand : Obligations.EightBusBytesAreOneCommand := by
  intro s w rest
  refine ⟨fun hrx hs => ⟨fun k => runSteps_command_bytes hrx hs, ?_⟩,
    fun htx hrx hrsp hs => ⟨fun k => runSteps_response_bytes htx hrx hrsp hs, runSteps_response_word htx hrx hrsp hs⟩⟩
  rw [runSteps_command_word hrx hs, step_host rfl]

end Sys2Proof.Machine
end

section
/-! PROOF. Every command word is answered (20_memory.md R60 (a), 60_exceptions.md R167), and the train is replaced whole
or not at all (20_memory.md R56). -/

namespace Sys2Proof.Machine

/-! ## Fields of a response (30_encoding.md R70) -/

@[simp] theorem rspErr_responseWord (r : Response) : rspErr (responseWord r) = errCode r.err := by
  ext i hi
  rw [rspErr, extract_bit _ hi]
  simp (disch := omega) only [responseWord, BitVec.getLsbD_or, placed_at, placed_low, bit_above,
    Nat.add_sub_cancel_left, Bool.or_false]
  exact BitVec.getLsbD_eq_getElem hi

@[simp] theorem rspVal_responseWord (r : Response) : rspVal (responseWord r) = r.val := by
  ext i hi
  rw [rspVal, extract_bit _ hi]
  simp (disch := omega) only [responseWord, BitVec.getLsbD_or, placed_below, placed_low, Nat.zero_add, Bool.false_or]
  exact BitVec.getLsbD_eq_getElem hi

/-! ## The answer of a command -/

/-- How a command ends: turned away with one of the errors the machine returns, or with a response of code 0
(60_exceptions.md R165, R168). -/
def Answered (s t : State) : Prop :=
  (∃ e, e ≠ .unsupportedClock ∧ t = refusedAs e s) ∨ ∃ r, r.err = .ok ∧ t.rsp = some (responseWord r)

theorem Answered.refused {e : Err} {s : State} (h : e ≠ .unsupportedClock) : Answered s (refusedAs e s) :=
  .inl ⟨e, h, rfl⟩

theorem Answered.success {r : Response} {s u : State} (h : r.err = .ok) : Answered s (writeResponse r u) :=
  .inr ⟨r, h, rfl⟩

theorem exec_answered {i : Instr} {s t : State} (h : exec i s = .next t) : Answered s t := by
  cases i with
  | clkdiv p =>
    obtain rfl | ⟨-, rfl⟩ := execClkdiv_cases h
    · exact .refused nofun
    · exact .success rfl
  | solve mode f =>
    obtain ⟨-, rfl⟩ | ⟨_, -, -, rfl⟩ | ⟨_, _, _, -, -, rfl⟩ := execSolve_cases h
    · exact .refused nofun
    · exact .refused nofun
    · exact .success rfl
  | encode top duty =>
    obtain rfl | ⟨-, rfl⟩ := execEncode_cases h
    · exact .refused nofun
    · exact .success rfl
  | decode top c =>
    obtain rfl | ⟨-, -, rfl⟩ := execDecode_cases h
    · exact .refused nofun
    · exact .success rfl
  | config ch mode pol psel top run =>
    obtain rfl | ⟨_, _, -, -, -, -, rfl⟩ := execConfig_cases h
    · exact .refused nofun
    · exact .success rfl
  | disconnect ch => rw [execDisconnect_cases h]; exact .success rfl
  | pwm ch mode f duty =>
    obtain rfl | rfl | ⟨rfl, -⟩ | ⟨_, _, _, -, -, -, -, rfl⟩ := execPwm_cases h
    · exact .refused nofun
    · exact .refused nofun
    · exact .success rfl
    · exact .success rfl
  | rdduty ch =>
    obtain rfl | ⟨-, -, rfl⟩ := execRdduty_cases h
    · exact .refused nofun
    · exact .success rfl
  | pinstat ch =>
    obtain ⟨_, _, rfl⟩ := execPinstat_cases h
    exact .success rfl
  | train ch n d1 d2 =>
    obtain ⟨_, rfl | rfl | rfl, rfl⟩ | ⟨-, -, -, -, -, -, rfl⟩ := execTrain_cases h
    · exact .refused nofun
    · exact .refused nofun
    · exact .refused nofun
    · exact .success rfl
  | stop => rw [execStop_cases h]; exact .success rfl
  | poll => rw [execPoll_cases h]; exact .success rfl
  | gieon => rw [execGieon_cases h]; exact .success rfl
  | gieoff => rw [execGieoff_cases h]; exact .success rfl

theorem hostCommand_answered {cmd : Word} {s t : State} (h : hostCommand cmd s = .next t) : Answered s t := by
  obtain ⟨i, -, hi⟩ | ⟨_, -, rfl⟩ := hostCommand_cases h
  · exact exec_answered hi
  · exact .refused nofun

/-- An answer is a response of code 0, or one of the five failures' words, which hold the code and zeros. -/
theorem Answered.response {s t : State} (h : Answered s t) :
    ∃ r, t.rsp = some r ∧
      (rspErr r = 0 ∨ r = 0x0100000000000000 ∨ r = 0x0300000000000000 ∨ r = 0x0400000000000000 ∨
        r = 0x0500000000000000 ∨ r = 0x0600000000000000) := by
  obtain ⟨e, he, rfl⟩ | ⟨r, hok, hr⟩ := h
  · refine ⟨responseWord { err := e }, rfl, ?_⟩
    cases e with
    | unsupportedClock => exact absurd rfl he
    | _ => decide
  · exact ⟨_, hr, .inl (by simp [hok, errCode])⟩

/-! ## The train and the schedule: the compound writes -/

@[simp] theorem unbindPin_seq_schedule (ch : Ch) (s : State) :
    (unbindPin ch s).seq = s.seq ∧ (unbindPin ch s).schedule = s.schedule := by
  simp [unbindPin_eq]

@[simp] theorem bypassWrites_seq_schedule (ch : Ch) (level : Bool) (s : State) :
    (bypassWrites ch level s).seq = s.seq ∧ (bypassWrites ch level s).schedule = s.schedule :=
  ⟨rfl, rfl⟩

@[simp] theorem pwmWrites_seq_schedule (ch : Ch) (m : SignalMode) (k : Sel) (top c : Half) (s : State) :
    (pwmWrites ch m k top c s).seq = s.seq ∧ (pwmWrites ch m k top c s).schedule = s.schedule :=
  ⟨rfl, rfl⟩

@[simp] theorem configWrites_seq_schedule (ch : Ch) (m : Mode) (p : Policy) (psel : Sel) (top : Half) (run : Bool)
    (s : State) :
    (configWrites ch m p psel top run s).seq = s.seq ∧
      (configWrites ch m p psel top run s).schedule = s.schedule := by
  simp [configWrites_eq]

@[simp] theorem preemptOther_schedule (ch : Ch) (s : State) : (preemptOther ch s).schedule = s.schedule := by
  rw [preemptOther_eq]
  split <;> rfl

/-- The train an accepted TRAIN arms at top `top` (42_sequencer.md R136). -/
def armedTrain (top : Half) (ch : Ch) (n : Half) (d1 d2 : Byte) : PulseTrain :=
  { value0 := BitVec.ofNat 16 (encodeDuty top.toNat d1.toNat)
    value1 := BitVec.ofNat 16 (encodeDuty top.toNat d2.toNat)
    remaining := BitVec.ofNat 16 (2 * n.toNat)
    active := ch }

@[simp] theorem trainWrites_seq_schedule (ch : Ch) (n : Half) (d1 d2 : Byte) (s : State) :
    (trainWrites ch n d1 d2 s).seq = armedTrain s.cfg.top ch n d1 d2 ∧
      (trainWrites ch n d1 d2 s).schedule = s.schedule := by
  simp [trainWrites_eq, armedTrain]

@[simp] theorem stopWrites_seq_schedule (s : State) :
    (stopWrites s).seq = { s.seq with remaining := 0 } ∧ (stopWrites s).schedule = s.schedule := by
  simp [stopWrites_eq]

/-- A service owes one service fewer on a running train's channel, and elsewhere leaves the train (42_sequencer.md
R153). -/
theorem serviceChannel_seq (ch : Ch) (s : State) :
    (serviceChannel ch s).seq =
      if s.seq.remaining ≠ 0 ∧ s.seq.active = ch then { s.seq with remaining := s.seq.remaining - 1 } else s.seq := by
  rw [serviceChannel_eq]
  split
  · split
    · rename_i hlast
      rw [hlast]
    · rfl
  · rfl

@[simp] theorem sendByte_seq (s : State) : (sendByte s).seq = s.seq := by
  obtain ⟨x, h, r, e⟩ := sendByte_frame s
  rw [e]

/-! ## The schedule and the train: operations -/

theorem CommandWrites.schedule {s u : State} {i : Instr} (hu : CommandWrites s i u) : u.schedule = s.schedule := by
  cases hu <;> simp

theorem exec_schedule {i : Instr} {s t : State} (h : exec i s = .next t) : t.schedule = s.schedule := by
  obtain ⟨r, u, hu, rfl⟩ := exec_commandWrites h
  exact hu.schedule

theorem hostCommand_schedule {cmd : Word} {s t : State} (h : hostCommand cmd s = .next t) :
    t.schedule = s.schedule := by
  obtain ⟨i, -, hi⟩ | ⟨_, -, rfl⟩ := hostCommand_cases h
  · exact exec_schedule hi
  · rfl

/-- Settles O9: the step is the host's command, which always ends and answers. -/
theorem everyCommandWordIsAnswered : Obligations.EveryCommandWordIsAnswered := by
  intro s w rest hs
  obtain ⟨t, ht⟩ := hostCommand_answers w { s with schedule := rest }
  obtain ⟨r, hr, hcode⟩ := (hostCommand_answered ht).response
  exact ⟨t, r, (step_host hs).trans ht, hr, hostCommand_schedule ht, hcode⟩

/-- Of the operations only STOP and an accepted TRAIN write the train (10_state.md R27). -/
theorem CommandWrites.seq {s u : State} {i : Instr} (hu : CommandWrites s i u) :
    u.seq = s.seq ∨ (i = .stop ∧ u.seq = { s.seq with remaining := 0 }) ∨
      ∃ ch n d1 d2, i = .train ch n d1 d2 ∧ trainDutyOk d1 = true ∧ trainDutyOk d2 = true ∧
        2 * n.toNat ≤ s.params.remMax ∧ u.seq = armedTrain s.cfg.top ch n d1 d2 := by
  cases hu with
  | train _ hd1 hd2 hfit _ _ => exact .inr (.inr ⟨_, _, _, _, rfl, hd1, hd2, hfit, by simp⟩)
  | stop => exact .inr (.inl ⟨rfl, by simp⟩)
  | _ => exact .inl (by simp)

/-- A compare value of a train is R97's, without wrapping. -/
theorem trainValue_toNat (top : Half) {d : Byte} (h : trainDutyOk d = true) :
    (BitVec.ofNat 16 (encodeDuty top.toNat d.toNat) : Half).toNat = (d.toNat * top.toNat + 50) / 100 := by
  have hd := ((trainDutyOk_iff d).1 h).2
  rw [toNat_half ((encodeDuty_le (by omega)).trans (Nat.le_of_lt_succ top.isLt)), encodeDuty_eq]

theorem armedTrain_spec {c : Cfg} (top : Half) (ch : Ch) {n : Half} {d1 d2 : Byte} (hd1 : trainDutyOk d1 = true)
    (hd2 : trainDutyOk d2 = true) (hfit : 2 * n.toNat ≤ c.remMax) :
    (armedTrain top ch n d1 d2).active = ch ∧ (armedTrain top ch n d1 d2).remaining.toNat = 2 * n.toNat ∧
      (armedTrain top ch n d1 d2).value0.toNat = (d1.toNat * top.toNat + 50) / 100 ∧
      (armedTrain top ch n d1 d2).value1.toNat = (d2.toNat * top.toNat + 50) / 100 :=
  ⟨rfl, toNat_half (hfit.trans (admitted_remMax_range c).2), trainValue_toNat top hd1, trainValue_toNat top hd2⟩

/-- Settles O43: of the kinds of step only a service and an operation write the train; an operation that was turned
away leaves it, so a TRAIN that wrote it was answered with success. -/
theorem trainIsReplacedWholeOrNotAtAll : Obligations.TrainIsReplacedWholeOrNotAtAll := by
  intro s t hstep
  cases step_kind hstep with
  | @command i _ _ _ _ _ hissued _ =>
    obtain ⟨rest, rx, hexec⟩ := step_of_issuedInstr hissued
    rw [hexec] at hstep
    obtain ⟨e, -, he⟩ | ⟨q, hok, hq⟩ := exec_answered hstep
    · rw [he]
      exact .inl rfl
    · obtain ⟨r, u, hu, ht⟩ := exec_commandWrites hstep
      rw [ht] at hq ⊢
      obtain hsame | ⟨rfl, hstop⟩ | ⟨ch, n, d1, d2, rfl, hd1, hd2, hfit, htrain⟩ := hu.seq
      · exact .inl hsame
      · exact .inr (.inl (by simp [hstop, hissued]))
      · refine .inr (.inr ⟨ch, n, d1, d2, responseWord q, hissued, hq, by simp [hok], ?_⟩)
        rw [writeResponse_seq, htrain]
        exact armedTrain_spec s.cfg.top ch hd1 hd2 hfit
  | @service ch rest hnext _ =>
    rw [serviceChannel_seq]
    split
    · rename_i hrun
      exact .inr (.inl ⟨rfl, rfl, rfl, .inl ⟨by simp [servesNext, hnext], toNat_half_pred hrun.1⟩⟩)
    · exact .inl rfl
  | busRead rest => exact .inl (sendByte_seq _)
  | _ => exact .inl rfl

end Sys2Proof.Machine
end

section
/-! PROOF. The agents do not disturb one another: a match and a service leave what only the host writes (20_memory.md
R50), a calculator commutes with them (R53), and a POLL of 0 shows an idle sequencer (R60 (c)). -/

namespace Sys2Proof.Machine

/-! ## Events and the host's state -/

@[simp] theorem serviceChannel_hostState (ch : Ch) (s : State) :
    (serviceChannel ch s).tmode = s.tmode ∧ (serviceChannel ch s).icr = s.icr ∧
      (serviceChannel ch s).rsp = s.rsp := by
  rw [serviceChannel_eq]
  split
  · split <;> exact ⟨rfl, rfl, rfl⟩
  · exact ⟨rfl, rfl, rfl⟩

/-- Settles O49: neither `matchChannel` nor `serviceChannel` writes any of them. -/
theorem eventsLeaveHostStateAlone : Obligations.EventsLeaveHostStateAlone := by
  intro s t e rest hs he hstep
  have hmove := performMove_of_takeMove ((step_cons hs).symm.trans hstep)
  obtain ⟨ch, rfl⟩ | ⟨ch, rfl⟩ := he
  · cases hmove
    exact ⟨rfl, rfl, rfl, rfl, rfl, rfl⟩
  · cases hmove
    simp

/-! ## Calculators and events -/

/-- A calculator's response depends on the configuration alone, and nothing else is written (40_calc.md R85). -/
theorem exec_calculator {i : Instr} (hi : isCalculator i = true) {s u : State} (hp : s.params = u.params) :
    ∃ r, exec i s = .next (writeResponse r s) ∧ exec i u = .next (writeResponse r u) := by
  cases i with
  | clkdiv p =>
    simp only [exec, execClkdiv, hp]
    split <;> exact ⟨_, rfl, rfl⟩
  | solve mode f =>
    simp only [exec, execSolve, hp]
    split
    · exact ⟨_, rfl, rfl⟩
    · split <;> exact ⟨_, rfl, rfl⟩
  | encode top duty =>
    simp only [exec, execEncode]
    split <;> exact ⟨_, rfl, rfl⟩
  | decode top c =>
    simp only [exec, execDecode]
    split
    · exact ⟨_, rfl, rfl⟩
    · split <;> exact ⟨_, rfl, rfl⟩
  | _ => cases hi

theorem moveEnabled_writeResponse_of_event {e : Event} (he : (∃ ch, e = .compareMatch ch) ∨ ∃ ch, e = .service ch)
    (r : Response) (s : State) : moveEnabled e (writeResponse r s) = moveEnabled e s := by
  obtain ⟨ch, rfl⟩ | ⟨ch, rfl⟩ := he
  · rfl
  · cases ch <;> rfl

theorem serviceChannel_writeResponse (ch : Ch) (r : Response) (s : State) :
    serviceChannel ch (writeResponse r s) = writeResponse r (serviceChannel ch s) := by
  rw [serviceChannel_eq, serviceChannel_eq, apply_ite (writeResponse r), apply_ite (writeResponse r)]
  rfl

/-- An event neither reads the response port nor writes the parameters. -/
theorem performMove_event {e : Event} (he : (∃ ch, e = .compareMatch ch) ∨ ∃ ch, e = .service ch) {s u : State}
    (h : performMove e s = .next u) :
    u.params = s.params ∧ ∀ r, performMove e (writeResponse r s) = .next (writeResponse r u) := by
  obtain ⟨ch, rfl⟩ | ⟨ch, rfl⟩ := he
  · cases h
    exact ⟨rfl, fun r => rfl⟩
  · cases h
    exact ⟨serviceChannel_params ch s, fun r => congrArg _ (serviceChannel_writeResponse ch r s)⟩

/-- Settles O23: the calculator writes the response port, which no event reads, and reads the parameters, which no
event writes. -/
theorem calculatorsCommuteWithEvents : Obligations.CalculatorsCommuteWithEvents := by
  intro i e s t hi he hexec
  refine ⟨?_, fun u hu => ?_⟩
  · obtain ⟨r, hr, -⟩ := exec_calculator hi (rfl : s.params = s.params)
    obtain rfl : t = writeResponse r s := Host.Outcome.next.inj (hexec.symm.trans hr)
    rw [takeMove_answers_iff, takeMove_answers_iff, moveEnabled_writeResponse_of_event he]
  · have hen : moveEnabled e s = true := (takeMove_answers_iff e s).1 ⟨u, hu⟩
    obtain ⟨hparams, hafter⟩ := performMove_event he (performMove_of_takeMove hu)
    obtain ⟨r, hr, hru⟩ := exec_calculator hi hparams.symm
    obtain rfl : t = writeResponse r s := Host.Outcome.next.inj (hexec.symm.trans hr)
    exact ⟨writeResponse r u,
      (takeMove_enabled ((moveEnabled_writeResponse_of_event he r s).trans hen)).trans (hafter r), hru⟩

/-! ## POLL -/

/-- Settles O58: POLL answers the pulse counter, and INV1 ties the enables to it. -/
theorem pollZeroMeansIdle : Obligations.PollZeroMeansIdle := by
  intro s t r hinv hexec hr hval
  obtain rfl := execPoll_cases hexec
  have hidle : s.seq.remaining = 0 := by
    cases hr
    simpa using hval
  have hoff (c : Ch) : s.ocie.get c = false := by
    rw [← Bool.not_eq_true, hinv.enabledIffActive]
    exact fun hact => hact.1 hidle
  exact ⟨if_pos hidle, hoff .A, hoff .B⟩

end Sys2Proof.Machine
end

section
/-! PROOF. The command word (30_encoding.md R65 to R73, R75): an operation's word decodes to it, a word that decodes is
the word of its operation, and which words decode; each from what `decode_ok_iff` says of the decoder. -/

namespace Sys2Proof

/-- A word with its row's `op` and nothing in its unused fields holds just the fields of the operation read from it: row
by row, a field the format uses is read as an operand and put back at its place, and any other is zero. -/
theorem fieldsOfInstr_buildInstr {o : Opcode} {w : Word} (hop : fieldOp w = opcodeCode o)
    (hzero : unusedZero (opcodeFormat o) w) : fieldsOfInstr (buildInstr o w) = fieldsOfWord w := by
  obtain ⟨hrsv, hch, hmode, hpol, hpsel, hrun, haux, hhi, hlo⟩ := hzero
  cases o <;>
    simp_all [opcodeFormat, buildInstr, fieldsOfInstr, fieldsOfWord, fieldW32, ofBool_of_beq_one]

theorem encode_buildInstr {o : Opcode} {w : Word} (hop : fieldOp w = opcodeCode o)
    (hzero : unusedZero (opcodeFormat o) w) : encode (buildInstr o w) = w := by
  rw [encode, fieldsOfInstr_buildInstr hop hzero, pack_fieldsOfWord]

/-- Settles O1: an operation's word has its row's `op`, zeros in the unused fields, and its operands at their places. -/
theorem decodeOfEncodeIsTheOperation : Obligations.DecodeOfEncodeIsTheOperation := fun i =>
  (decode_ok_iff _ i).2 ⟨opcodeOfInstr i, fieldOp_encode i, unusedZero_encode i, (buildInstr_encode i).symm⟩

/-- Settles O2: the decoder accepts only a word whose ten fields are those of the operation it reads. -/
theorem encodeOfDecodeIsTheWord : Obligations.EncodeOfDecodeIsTheWord := by
  intro w i h
  obtain ⟨o, hop, hzero, rfl⟩ := (decode_ok_iff w i).1 h
  exact encode_buildInstr hop hzero

/-- Settles O3: `decode_ok_iff` with the operation left out, and an operation is of the row it was read for. -/
theorem wordDecodesIffUnusedBitsAreZero : Obligations.WordDecodesIffUnusedBitsAreZero := by
  refine fun w => ⟨⟨?_, ?_⟩, fun i h => ?_⟩
  · rintro ⟨i, h⟩
    obtain ⟨o, hop, hzero, -⟩ := (decode_ok_iff w i).1 h
    exact ⟨o, hop, hzero⟩
  · rintro ⟨o, hop, hzero⟩
    exact ⟨buildInstr o w, (decode_ok_iff w _).2 ⟨o, hop, hzero, rfl⟩⟩
  · obtain ⟨o, hop, -, rfl⟩ := (decode_ok_iff w i).1 h
    rw [hop, opcodeOfInstr_build]

theorem decode_of_encode_eq {i : Instr} {w : Word} (h : encode i = w) : decode w = .ok i :=
  h ▸ decodeOfEncodeIsTheOperation i

/-- Settles O4: each word is the encoding of the operation it is said to be. -/
theorem specSampleWordsDecode : Obligations.SpecSampleWordsDecode :=
  ⟨decode_of_encode_eq (by decide), decode_of_encode_eq (by decide), decode_of_encode_eq (by decide),
    decode_of_encode_eq (by decide), decode_of_encode_eq (by decide)⟩

end Sys2Proof
end

section
/-! PROOF. The response word (30_encoding.md R70): the field each of its bits belongs to. -/

namespace Sys2Proof.Machine

theorem responseWord_bit (r : Response) {j : Nat} (hj : j < 64) :
    (responseWord r).getLsbD j =
      (if j < 16 then r.val.getLsbD j
       else if j < 32 then r.top.getLsbD (j - 16)
       else if j < 48 then r.presc.getLsbD (j - 32)
       else if j < 51 then r.psel.getLsbD (j - 48)
       else if j < 56 then false
       else (errCode r.err).getLsbD (j - 56)) := by
  simp only [responseWord, BitVec.getLsbD_or]
  split_ifs <;>
    simp (disch := omega) only [placed_at, placed_below, placed_low, bit_above, Bool.or_false, Bool.false_or]

/-- A field of a word is the value whose bits stand there. -/
theorem extract_eq_of_bits {n k : Nat} {w : Word} {x : BitVec n}
    (h : ∀ i < n, w.getLsbD (k + i) = x.getLsbD i) : w.extractLsb' k n = x := by
  ext i hi
  rw [extract_bit w hi, h i hi, BitVec.getLsbD_eq_getElem hi]

@[simp] theorem rspTop_responseWord (r : Response) : rspTop (responseWord r) = r.top :=
  extract_eq_of_bits fun i hi => by
    simp (disch := omega) only [responseWord_bit, if_neg, if_pos, Nat.add_sub_cancel_left]

@[simp] theorem rspPresc_responseWord (r : Response) : rspPresc (responseWord r) = r.presc :=
  extract_eq_of_bits fun i hi => by
    simp (disch := omega) only [responseWord_bit, if_neg, if_pos, Nat.add_sub_cancel_left]

@[simp] theorem rspPsel_responseWord (r : Response) : rspPsel (responseWord r) = r.psel :=
  extract_eq_of_bits fun i hi => by
    simp (disch := omega) only [responseWord_bit, if_neg, if_pos, Nat.add_sub_cancel_left]

/-- Bits 55:51 of a response are 0. -/
theorem responseWord_zeroBits (r : Response) : (responseWord r).extractLsb' 51 5 = 0 :=
  extract_eq_of_bits fun i hi => by
    simp (disch := omega) only [responseWord_bit, if_neg, if_pos]
    exact BitVec.getLsbD_zero.symm

/-- Settles O5: the layout field by field, and the codes as `errCode` writes them. -/
theorem responseWordHoldsItsFields : Obligations.ResponseWordHoldsItsFields :=
  ⟨fun r => ⟨rspErr_responseWord r, responseWord_zeroBits r, rspPsel_responseWord r, rspPresc_responseWord r,
    rspTop_responseWord r, rspVal_responseWord r⟩, rfl, rfl, rfl, rfl, rfl, rfl, rfl⟩

end Sys2Proof.Machine
end

section
/-! PROOF. What is turned away changes nothing: an illegal word (30_encoding.md R73), and an operation with a reserved
operand (R74, 60_exceptions.md R169), one lemma for each operation that has one. -/

namespace Sys2Proof.Machine

/-! ## An illegal word -/

theorem hostCommand_of_illegal {cmd : Word} {e : Illegal} (h : decode cmd = .error e) (s : State) :
    hostCommand cmd s = .next (refusedAs .illegalCommand s) := by
  rw [hostCommand, h]
  rfl

/-- Settles O7: the step is the host's command, turned away as illegal; the written-out word is that response. -/
theorem illegalWordIsAnsweredAndChangesNothing : Obligations.IllegalWordIsAnsweredAndChangesNothing := by
  intro s w e rest hs he
  have hword : responseWord { err := .illegalCommand } = 0x0500000000000000 := by decide
  rw [step_host hs, hostCommand_of_illegal he, refusedAs, writeResponse, hword]

/-! ## A reserved operand -/

theorem signalModeOfBits_reserved {mode : BitVec 2} (h : signalModeLegal mode = false) :
    signalModeOfBits mode = none := by
  rw [signalModeOfBits_none_iff]
  exact Nat.lt_of_not_le (of_decide_eq_false h)

/-- A critical section whose body turns the operation away leaves everything as it was. -/
theorem critical_refused {body : State → Result} {s : State} {e : Err}
    (h : body (setGie false s) = .next (refusedAs e (setGie false s))) :
    critical body s = .next (refusedAs e s) :=
  (critical_next_iff _ _ _).2 ⟨_, h, rfl⟩

theorem execSolve_reserved {mode : BitVec 2} (f : Word32) (s : State) (h : signalModeLegal mode = false) :
    execSolve mode f s = .next (refusedAs .badOperand s) := by
  rw [execSolve, signalModeOfBits_reserved h]
  rfl

theorem execEncode_reserved (top : Half) {duty : Half} (s : State) (h : 100 < duty.toNat) :
    execEncode top duty s = .next (refusedAs .badOperand s) :=
  if_pos h

theorem execConfig_reserved (ch : Ch) {mode : BitVec 2} {pol : BitVec 3} {psel : Sel} (top : Half) (run : Bool)
    (s : State) (h : modeOfBits mode = none ∨ policyOfBits pol = none ∨ selectorOk s.params psel = false) :
    execConfig ch mode pol psel top run s = .next (refusedAs .badOperand s) := by
  obtain ⟨t, ht⟩ := exec_answers (.config ch mode pol psel top run) s
  obtain rfl | ⟨m, p, hmode, hpol, hsel, -, -⟩ := execConfig_cases ht
  · exact ht
  · simp [hmode, hpol, hsel] at h

theorem execPwm_reserved (ch : Ch) {mode : BitVec 2} (f : Word32) {duty : Byte} (s : State)
    (h : signalModeLegal mode = false ∨ 100 < duty.toNat) :
    execPwm ch mode f duty s = .next (refusedAs .badOperand s) := by
  refine critical_refused ?_
  cases hm : signalModeOfBits mode with
  | none => rfl
  | some m =>
    have hduty : 100 < duty.toNat := h.resolve_left fun hl => by simp [signalModeOfBits_reserved hl] at hm
    exact if_pos hduty

theorem execTrain_reserved (ch : Ch) (n : Half) {d1 d2 : Byte} (s : State)
    (h : trainDutyOk d1 = false ∨ trainDutyOk d2 = false) :
    execTrain ch n d1 d2 s = .next (refusedAs .badOperand s) := by
  by_cases hn : n = 0
  · exact if_pos hn
  · exact (if_neg hn).trans (if_pos h)

theorem trainDutyOk_reserved {d : Byte} (h : 100 < d.toNat) : trainDutyOk d = false := by
  rw [← Bool.not_eq_true, trainDutyOk_iff]
  omega

/-- Settles O59: an operation with a reserved operand is one of five, and each checks its operands before it writes. -/
theorem reservedOperandIsRefused : Obligations.ReservedOperandIsRefused := by
  intro i s h
  cases i with
  | solve mode f => exact execSolve_reserved f s h
  | encode top duty => exact execEncode_reserved top s (Nat.lt_of_not_le (of_decide_eq_false h))
  | config ch mode pol psel top run =>
    refine execConfig_reserved ch top run s ?_
    rw [modeOfBits_none_iff, policyOfBits_none_iff]
    have hmode := mode.isLt
    simp only [Instr.wellFormed, Bool.and_eq_false_iff, decide_eq_false_iff_not, or_assoc] at h
    exact h.imp (by omega) (Or.imp_left (by omega))
  | pwm ch mode f duty =>
    simp only [Instr.wellFormed, Bool.and_eq_false_iff, decide_eq_false_iff_not, Nat.not_le] at h
    exact execPwm_reserved ch f s h
  | train ch n d1 d2 =>
    simp only [Instr.wellFormed, Bool.and_eq_false_iff, decide_eq_false_iff_not, Nat.not_le] at h
    exact execTrain_reserved ch n s (h.imp trainDutyOk_reserved trainDutyOk_reserved)
  | _ => cases h

end Sys2Proof.Machine
end

section
/-! PROOF. The host-side critical section (30_encoding.md R76): the operations inside leave the enable at 0, and its
closing GIEON is issued when GIEOFF reported 1. -/

namespace Sys2Proof.Machine

theorem issueAll_cons {i : Instr} {s t : State} (h : exec i s = .next t) (rest : List Instr) :
    issueAll (i :: rest) s = issueAll rest t := by
  rw [issueAll, h]

/-- Only GIEON raises the enable. -/
theorem exec_keeps_masked {i : Instr} {s t : State} (hi : i ≠ .gieon) (hmasked : s.gie = false)
    (h : exec i s = .next t) : t.gie = false := by
  obtain ⟨r, u, hwrites, rfl⟩ := exec_commandWrites h
  obtain hsame | ⟨hon, -⟩ | ⟨-, hoff⟩ := hwrites.gie
  · exact hsame.trans hmasked
  · exact absurd hon hi
  · exact hoff

theorem issueAll_keeps_masked {ops : List Instr} {s : State} (hops : .gieon ∉ ops) (hmasked : s.gie = false) :
    ∃ t, issueAll ops s = .next t ∧ t.gie = false := by
  induction ops generalizing s with
  | nil => exact ⟨s, rfl, hmasked⟩
  | cons i rest ih =>
    obtain ⟨hi, hrest⟩ := List.ne_and_not_mem_of_not_mem_cons hops
    obtain ⟨t, ht⟩ := exec_answers i s
    rw [issueAll_cons ht]
    exact ih hrest (exec_keeps_masked (Ne.symm hi) hmasked ht)

/-- What closes the section, by the enable GIEOFF reported. -/
theorem criticalClose_response (saved : Bool) :
    criticalClose (responseWord { val := halfOfBool saved }) = if saved then [.gieon] else [] := by
  rw [criticalClose, rspVal_responseWord]
  cases saved <;> rfl

theorem criticalClose_restores {u : State} (hmasked : u.gie = false) (saved : Bool) :
    ∃ v, issueAll (criticalClose (responseWord { val := halfOfBool saved })) u = .next v ∧ v.gie = saved := by
  rw [criticalClose_response]
  cases saved with
  | false => exact ⟨u, rfl, hmasked⟩
  | true => exact ⟨_, issueAll_cons rfl [], rfl⟩

/-- Settles O60: GIEOFF masks and reports the enable, the operations keep it masked, the close restores it. -/
theorem hostCriticalRestoresTheEnable : Obligations.HostCriticalRestoresTheEnable := by
  intro s ops hops
  obtain ⟨u, hu, hmasked⟩ :=
    issueAll_keeps_masked (s := writeResponse { val := halfOfBool s.gie } (setGie false s)) hops rfl
  obtain ⟨v, hv, hrestored⟩ := criticalClose_restores hmasked s.gie
  refine ⟨_, u, v, _, rfl, rfl, rfl, fun hon => ?_, fun hoff => ?_, hu, hmasked, hv, hrestored⟩
  · rw [criticalClose_response, if_pos hon]
  · rw [criticalClose_response, hoff, if_neg Bool.false_ne_true]

end Sys2Proof.Machine
end

section
/-! PROOF. CLKDIV, ENCODE and DECODE (40_calc.md R86, R97, R100), and DECODE after ENCODE (R101): an equation for each
operation that is accepted and for each that is turned away, then the ranges that let a field of the response hold the
answer. -/

namespace Sys2Proof.Machine

/-- Settles O22: `exec_calculator`, with the write of the response written out. -/
theorem calculatorsAreFunctionsOfTheCommand : Obligations.CalculatorsAreFunctionsOfTheCommand := by
  intro i s u hi hp
  obtain ⟨r, hs, hu⟩ := exec_calculator hi hp
  exact ⟨responseWord r, hs, hu⟩

/-! ## CLKDIV -/

theorem exec_clkdiv_divisor {p : Word32} {s : State} (h : periodCycles s.params p ∈ s.params.divisors) :
    exec (.clkdiv p) s = .next (writeResponse { val := BitVec.ofNat 16 (periodCycles s.params p) } s) :=
  if_pos h

theorem exec_clkdiv_unsupported {p : Word32} {s : State} (h : periodCycles s.params p ∉ s.params.divisors) :
    exec (.clkdiv p) s = .next (refusedAs .unsupportedFrequency s) :=
  if_neg h

theorem admitted_divisor_le (c : Cfg) {d : Nat} (h : d ∈ c.divisors) : d ≤ 65535 :=
  (divisorsFrom_mem (admitted_divisors_ok c) d h).2

/-- Settles O11: a divisor fits in `val`, since R6 admits none above 65535. -/
theorem clkdivAnswersTheDivisor : Obligations.ClkdivAnswersTheDivisor :=
  fun _ s => ⟨fun h => ⟨_, toNat_half (admitted_divisor_le s.params h), exec_clkdiv_divisor h⟩,
    exec_clkdiv_unsupported⟩

/-! ## ENCODE and DECODE -/

theorem exec_encode_accepted (top : Half) {duty : Half} (s : State) (h : duty.toNat ≤ 100) :
    exec (.encode top duty) s =
      .next (writeResponse { val := BitVec.ofNat 16 (encodeDuty top.toNat duty.toNat) } s) :=
  if_neg (Nat.not_lt.2 h)

theorem exec_decode_accepted {top c : Half} (s : State) (htop : top ≠ 0) (hc : c.toNat ≤ top.toNat) :
    exec (.decode top c) s = .next (writeResponse { val := BitVec.ofNat 16 (decodeDuty top.toNat c.toNat) } s) :=
  (if_neg htop).trans (if_neg (Nat.not_lt.2 hc))

theorem exec_decode_refused {top c : Half} (s : State) (h : top = 0 ∨ top.toNat < c.toNat) :
    exec (.decode top c) s = .next (refusedAs .badOperand s) := by
  by_cases htop : top = 0
  · exact if_pos htop
  · exact (if_neg htop).trans (if_pos (h.resolve_left htop))

/-- The field `val` holds ENCODE's compare value, which is not above the top. -/
theorem toNat_encodeDuty (top : Half) {duty : Nat} (h : duty ≤ 100) :
    (BitVec.ofNat 16 (encodeDuty top.toNat duty) : Half).toNat = encodeDuty top.toNat duty :=
  toNat_half ((encodeDuty_le h).trans (Nat.le_of_lt_succ top.isLt))

/-- The field `val` holds DECODE's duty cycle, which is not above 100. -/
theorem toNat_decodeDuty {top c : Nat} (h : c ≤ top) :
    (BitVec.ofNat 16 (decodeDuty top c) : Half).toNat = decodeDuty top c :=
  toNat_half ((decodeDuty_le h).trans (by decide))

/-- Settles O19: the compare value is not above the top, so the field holds it. -/
theorem encodeAnswersTheRoundedCompareValue : Obligations.EncodeAnswersTheRoundedCompareValue := by
  refine fun top duty s => ⟨fun h => ⟨_, ?_, ?_, exec_encode_accepted top s h⟩, execEncode_reserved top s⟩
  · rw [toNat_encodeDuty top h, encodeDuty_eq]
  · rw [toNat_encodeDuty top h]
    exact encodeDuty_le h

/-- Settles O20: the duty cycle is at most 100, so the field holds it. -/
theorem decodeAnswersTheTruncatedDuty : Obligations.DecodeAnswersTheTruncatedDuty := by
  refine fun top c s => ⟨fun htop hc => ⟨_, ?_, ?_, exec_decode_accepted s htop hc⟩, exec_decode_refused s⟩
  · rw [toNat_decodeDuty hc, decodeDuty]
  · rw [toNat_decodeDuty hc]
    exact decodeDuty_le hc

/-- The rounding to the nearest compare value is off by at most 50 in `100 * compare`, which is less than the top, so
the truncated quotient is the duty cycle or falls one below it (R101). -/
theorem decodeDuty_encodeDuty {top : Nat} (duty : Nat) (htop : 50 < top) :
    decodeDuty top (encodeDuty top duty) = duty ∨ decodeDuty top (encodeDuty top duty) + 1 = duty := by
  rw [encodeDuty_eq, decodeDuty]
  have hupper : 100 * ((duty * top + 50) / 100) / top < duty + 1 := by
    rw [Nat.div_lt_iff_lt_mul (by omega), Nat.add_mul duty]
    omega
  have hlower : duty - 1 ≤ 100 * ((duty * top + 50) / 100) / top := by
    rw [Nat.le_div_iff_mul_le (by omega), Nat.sub_one_mul]
    omega
  omega

/-- Settles O21: DECODE takes ENCODE's answer, and the two functions compose as `decodeDuty_encodeDuty` says. -/
theorem dutyRoundTripIsWithinOne : Obligations.DutyRoundTripIsWithinOne := by
  intro top duty s htop hduty
  have hval := toNat_encodeDuty top hduty
  have hle : (BitVec.ofNat 16 (encodeDuty top.toNat duty.toNat) : Half).toNat ≤ top.toNat :=
    hval.trans_le (encodeDuty_le hduty)
  refine ⟨_, _, exec_encode_accepted top s hduty,
    exec_decode_accepted s ((half_ne_zero_iff top).2 (by omega)) hle, ?_⟩
  rw [toNat_decodeDuty hle, hval]
  exact decodeDuty_encodeDuty duty.toNat (by omega)

end Sys2Proof.Machine
end

section
/-! PROOF. SOLVE (40_calc.md R89 to R95): the relation `SolvesTo` allows one answer or none and bounds it, its answer is
the first and so the largest, and the operation answers what the relation allows. -/

namespace Sys2Proof.Machine

/-! ## The relation -/

theorem solveFrequency_of_solvesTo {c : Cfg} {m : SignalMode} {f k p top : Nat} (h : SolvesTo c m f k p top) :
    solveFrequency c m f = some (k, top) := by
  rw [solveFrequency_some_iff, prescalerAt_of_solvesTo h]
  exact h

theorem solvesTo_or_unsolvable (c : Cfg) (m : SignalMode) (f : Nat) :
    (∃ k p top, SolvesTo c m f k p top) ∨ Unsolvable c m f := by
  cases h : solveFrequency c m f with
  | none => exact .inr ((solveFrequency_none_iff c m f).1 h)
  | some answer => exact .inl ⟨_, _, _, (solveFrequency_some_iff c m f answer.1 answer.2).1 h⟩

theorem SolvesTo.not_unsolvable {c : Cfg} {m : SignalMode} {f k p top : Nat} (h : SolvesTo c m f k p top) :
    ¬Unsolvable c m f := by
  rw [← solveFrequency_none_iff, solveFrequency_of_solvesTo h]
  nofun

theorem SolvesTo.unique {c : Cfg} {m : SignalMode} {f k p top k' p' top' : Nat} (h : SolvesTo c m f k p top)
    (h' : SolvesTo c m f k' p' top') : k = k' ∧ p = p' ∧ top = top' := by
  have hsame := (solveFrequency_of_solvesTo h).symm.trans (solveFrequency_of_solvesTo h')
  obtain ⟨rfl, rfl⟩ : k = k' ∧ top = top' := by simpa using hsame
  exact ⟨rfl, (prescalerAt_of_solvesTo h).symm.trans (prescalerAt_of_solvesTo h'), rfl⟩

/-- Settles O15: the top by `SolvesTo.top_pos`, the others by R6's limits on the list and its elements. -/
theorem solvedTopIsNeverZero : Obligations.SolvedTopIsNeverZero := by
  intro c m f k p top h
  obtain ⟨hppos, hple⟩ := admitted_prescaler_range c p (List.mem_of_getElem? h.prescaler)
  exact ⟨h.top_pos, h.top_le, h.selectorPositive, h.selector_le.trans (admitted_prescalers_length c).2, hppos, hple⟩

/-! ## The default prescalers (R94 (b)) -/

/-- A prescaler serves when the rounded quotient is in the range of the mode's counts. -/
theorem prescalerServes_iff {clk f p : Nat} {m : SignalMode} (hp : 0 < p) (hf : 0 < f) :
    prescalerServes clk m f p ↔
      1 ≤ rnd clk (solveDivisor m f p) ∧ rnd clk (solveDivisor m f p) < countOfTop m counterMax + 1 := by
  rw [← not_iff_not, ← solveCandidate_none_iff_not_serves hp hf, solveCandidate_none_iff]
  omega

/-- The same without division: the divisor is at most twice the clock and not so small that the top is out of range. -/
theorem prescalerServes_iff_le {clk f p : Nat} {m : SignalMode} (hp : 0 < p) (hf : 0 < f) :
    prescalerServes clk m f p ↔
      solveDivisor m f p ≤ 2 * clk ∧
        2 * clk + solveDivisor m f p < 2 * solveDivisor m f p * (countOfTop m counterMax + 1) := by
  have hpos := solveDivisor_pos m hp hf
  rw [prescalerServes_iff hp hf, le_rnd_iff hpos, rnd_lt_iff hpos]
  omega

/-- Each default prescaler is at most eight times the one before it, far less than the range of tops is wide, so the
frequencies they serve overlap, from half the clock, which 1 serves, down to 1 Hz, which 256 serves at either clock. -/
theorem default_prescaler_serves {clk f : Nat} (m : SignalMode) (hclk : clk = 1000000 ∨ clk = 8000000) (hf : 0 < f)
    (hhalf : 2 * f ≤ clk) : ∃ p ∈ [1, 8, 64, 256, 1024], prescalerServes clk m f p := by
  by_contra! hnone
  simp only [List.forall_mem_cons, prescalerServes_iff_le (Nat.succ_pos _) hf] at hnone
  obtain ⟨h1, h8, h64, h256, h1024, -⟩ := hnone
  cases m <;> simp only [solveDivisor, countOfTop, counterMax] at h1 h8 h64 h256 h1024 <;> omega

/-- Settles O16: a default prescaler serves the frequency, so it is not unsolvable. -/
theorem defaultPrescalersServeEveryFrequency : Obligations.DefaultPrescalersServeEveryFrequency := by
  intro c m f hdefault hf hhalf
  refine (solvesTo_or_unsolvable c m f).resolve_right ?_
  rintro (hzero | habove | hnone)
  · omega
  · omega
  · obtain ⟨p, hp, hserves⟩ := default_prescaler_serves m (admitted_clock_ok c) hf (by omega)
    exact hnone p (hdefault ▸ hp) hserves

/-! ## The first answer is the largest (R94 (d)) -/

theorem prescaler_mono {c : Cfg} {i j p q : Nat} (hij : i ≤ j) (hp : c.prescalers[i]? = some p)
    (hq : c.prescalers[j]? = some q) : p ≤ q := by
  obtain ⟨rest, e, -, hrest⟩ := admitted_prescalers_cons c
  obtain rfl | hlt := Nat.eq_or_lt_of_le hij
  · exact (Option.some.inj (hp.symm.trans hq)).le
  · rw [e] at hp hq
    exact (prescalersFrom_lt hrest hlt hp hq).le

/-- No prescaler before the answer's serves, and the list ascends. -/
theorem SolvesTo.prescaler_le {c : Cfg} {m : SignalMode} {f k p top q : Nat} (h : SolvesTo c m f k p top)
    (hq : q ∈ c.prescalers) (hserves : prescalerServes c.clkHz m f q) : p ≤ q := by
  obtain ⟨i, hi⟩ := List.mem_iff_getElem?.1 hq
  have hlater : k - 1 ≤ i := Nat.le_of_not_lt fun hlt => h.first i q hlt hi hserves
  exact prescaler_mono hlater h.prescaler hi

/-- A larger prescaler gives no larger top. -/
theorem topIsNearest_anti {clk f p q top top' : Nat} {m : SignalMode} (hp : 0 < p) (hf : 0 < f) (hpq : p ≤ q)
    (h : topIsNearest clk f p top m) (h' : topIsNearest clk f q top' m) : top' ≤ top := by
  have hcount := rnd_anti (a := clk) (solveDivisor_pos m hp hf) (solveDivisor_mono m f hpq)
  rw [(topIsNearest_iff hp hf).1 h, (topIsNearest_iff (by omega) hf).1 h'] at hcount
  cases m with
  | fast => exact Nat.le_of_succ_le_succ hcount
  | phaseCorrect => exact hcount

/-- Settles O17: the answer's prescaler is the smallest that serves, and a smaller prescaler gives a larger top. -/
theorem solvedTopIsTheLargest : Obligations.SolvedTopIsTheLargest := by
  intro c m f k p top q top' h hq hnearest hrange
  have hle := h.prescaler_le hq ⟨top', hnearest, hrange⟩
  exact ⟨hle, topIsNearest_anti (prescaler_pos_of_getElem? c h.prescaler) h.frequencyPositive hle h.nearest hnearest⟩

/-! ## The operation -/

theorem errCode_ok_ne_unsupported : errCode .ok ≠ errCode .unsupportedFrequency := by decide

theorem exec_solve_answer {s : State} {m : SignalMode} {f : Word32} {k p top : Nat}
    (h : SolvesTo s.params m f.toNat k p top) :
    exec (.solve (modeCode (timerMode m)) f) s = .next (writeResponse
      { psel := BitVec.ofNat 3 k, presc := BitVec.ofNat 16 p, top := BitVec.ofNat 16 top } s) := by
  simp only [exec, execSolve, signalModeOfBits_code, solveFrequency_of_solvesTo h, prescalerAt_of_solvesTo h, respond]

theorem exec_solve_unsupported {s : State} {m : SignalMode} {f : Word32} (h : Unsolvable s.params m f.toNat) :
    exec (.solve (modeCode (timerMode m)) f) s = .next (refusedAs .unsupportedFrequency s) := by
  simp only [exec, execSolve, signalModeOfBits_code, (solveFrequency_none_iff _ _ _).2 h, raise, respond, refusedAs]

/-- Settles O12: the search finds what the relation allows. -/
theorem solveAnswersTheFirstPrescaler : Obligations.SolveAnswersTheFirstPrescaler :=
  fun _ _ _ _ _ _ h => exec_solve_answer h

/-- Settles O13: the mode is looked at first, and the search finds nothing where the relation allows nothing. -/
theorem solveRefusesModesAndFrequencies : Obligations.SolveRefusesModesAndFrequencies := by
  refine fun mode f s => ⟨fun h => ?_, ?_⟩
  · exact execSolve_reserved f s (decide_eq_false (Nat.not_le.2 h))
  · rintro m rfl h
    exact exec_solve_unsupported h

/-- The response holds an answer's three numbers as they are. -/
theorem SolvesTo.response_fields {c : Cfg} {m : SignalMode} {f k p top : Nat} (h : SolvesTo c m f k p top) :
    (BitVec.ofNat 3 k : Sel).toNat = k ∧ (BitVec.ofNat 16 p : Half).toNat = p ∧
      (BitVec.ofNat 16 top : Half).toNat = top := by
  obtain ⟨-, htop, -, hk, -, hp⟩ := solvedTopIsNeverZero c m f k p top h
  exact ⟨toNat_sel hk, toNat_half hp, toNat_half htop⟩

/-- Settles O14: the relation allows one answer, which the response carries, or none, which is the error. -/
theorem everyFrequencyHasOneAnswerOrNone : Obligations.EveryFrequencyHasOneAnswerOrNone := by
  intro m f s
  obtain ⟨k, p, top, h⟩ | h := solvesTo_or_unsolvable s.params m f.toNat
  · refine ⟨_, exec_solve_answer h, fun k' p' top' => ?_, ?_⟩
    · obtain ⟨hk, hp, htop⟩ := h.response_fields
      simp only [rspErr_responseWord, rspPsel_responseWord, rspPresc_responseWord, rspTop_responseWord, hk, hp, htop,
        true_and]
      constructor
      · exact h.unique
      · rintro ⟨rfl, rfl, rfl⟩
        exact h
    · rw [rspErr_responseWord]
      exact iff_of_false h.not_unsolvable errCode_ok_ne_unsupported
  · refine ⟨_, exec_solve_unsupported h, fun k' p' top' => ?_, ?_⟩
    · rw [rspErr_responseWord]
      exact iff_of_false (fun h' => h'.not_unsolvable h) fun hok => errCode_ok_ne_unsupported hok.1.symm
    · rw [rspErr_responseWord]
      exact iff_of_true h rfl

/-! ## Top 0 (R93) -/

theorem exec_config_top_zero (ch : Ch) (mode : BitVec 2) (pol : BitVec 3) (psel : Sel) (run : Bool) (s : State) :
    exec (.config ch mode pol psel 0 run) s = .next (refusedAs .badOperand s) := by
  obtain ⟨t, ht⟩ := exec_answers (.config ch mode pol psel 0 run) s
  obtain rfl | ⟨_, _, -, -, -, htop, -⟩ := execConfig_cases ht
  · exact ht
  · exact absurd rfl htop

/-- Settles O18: of the three ways SOLVE ends only the two failures leave the top 0, and only one has this code. -/
theorem topZeroIsTheUnsupportedSentinel : Obligations.TopZeroIsTheUnsupportedSentinel := by
  refine fun s => ⟨fun mode f t r hexec hr => ?_, fun _ _ _ _ _ => exec_config_top_zero _ _ _ _ _ s⟩
  obtain ⟨-, rfl⟩ | ⟨m, -, -, rfl⟩ | ⟨m, k, top, -, hsolve, rfl⟩ := execSolve_cases hexec <;>
    obtain rfl := Option.some.inj hr <;> rw [rspErr_responseWord, rspTop_responseWord]
  · exact ⟨fun h => absurd h (by decide), fun h => absurd h (by decide)⟩
  · exact ⟨fun hok => absurd hok.symm errCode_ok_ne_unsupported, fun _ => ⟨rfl, rfl⟩⟩
  · obtain ⟨-, -, htop, -⟩ := solved_configLegal hsolve
    exact ⟨fun _ => (half_ne_zero_iff _).2 htop, fun herr => absurd herr errCode_ok_ne_unsupported⟩

end Sys2Proof.Machine
end

section
/-! PROOF. CONFIG and DISCONNECT (41_waveform.md R111 to R117): an equation for each operation that is accepted, made of
the writes inside the critical section, and the refusals of CONFIG. -/

namespace Sys2Proof.Machine

/-- A critical section whose body writes and responds: `S.GIE` is masked while it does and comes back unchanged. -/
theorem critical_responds {body : State → Result} {r : Response} {s u : State} (hgie : u.gie = s.gie)
    (h : body (setGie false s) = respond r (setGie false u)) : critical body s = .next (writeResponse r u) :=
  (critical_next_iff _ _ _).2 ⟨_, h, by rw [setGie_writeResponse, setGie_setGie, ← hgie, setGie_self]⟩

/-! ## CONFIG -/

theorem policyIsPwm_iff (p : Policy) : policyIsPwm p = true ↔ p = .nonInverting ∨ p = .inverting := by
  cases p <;> decide

theorem configWrites_setGie (ch : Ch) (m : Mode) (p : Policy) (psel : Sel) (top : Half) (run v : Bool) (s : State) :
    configWrites ch m p psel top run (setGie v s) = setGie v (configWrites ch m p psel top run s) := by
  rw [configWrites_eq, configWrites_eq]
  rfl

theorem execConfig_accepted (ch : Ch) (m : Mode) (p : Policy) {psel : Sel} {top : Half} (run : Bool) {s : State}
    (hpos : 1 ≤ psel.toNat) (hlen : psel.toNat ≤ s.params.prescalers.length) (htop : top ≠ 0) :
    execConfig ch (modeCode m) (policyCode p) psel top run s =
      .next (writeResponse {} (configWrites ch m p psel top run s)) := by
  have hsel : selectorOk s.params psel = true := (selectorOk_iff _ _).2 ⟨hpos, hlen⟩
  refine critical_responds (configWrites_frame ch m p psel top run s).1 ?_
  simp only [modeOfBits_code, policyOfBits_code, setGie_params, hsel, htop, configWrites_setGie, if_false,
    Bool.true_eq_false]

/-- Settles O24: an accepted CONFIG responds over `configWrites`, which `configWrites_eq` writes out. -/
theorem configInstallsAndBinds : Obligations.ConfigInstallsAndBinds := by
  intro ch m p psel top run s hpos hlen htop
  refine (execConfig_accepted ch m p run hpos hlen htop).trans ?_
  simp only [configWrites_eq, policyIsPwm_iff]
  rfl

/-- Settles O25: a reserved mode, policy or selector fails the check of its own field, and top 0 the last check. -/
theorem configRefusesReservedValues : Obligations.ConfigRefusesReservedValues := by
  intro ch mode pol psel top run s h
  by_cases htop : top = 0
  · subst htop
    exact exec_config_top_zero ch mode pol psel run s
  · simp only [htop, or_false] at h
    refine execConfig_reserved ch top run s ?_
    rw [modeOfBits_none_iff, policyOfBits_none_iff, ← Bool.not_eq_true, selectorOk_iff]
    omega

/-- Settles O26: among `configWrites`, the direction is written for every binding and the level for a PWM policy only. -/
theorem bindingForcesOutputAndKeepsTheLevel : Obligations.BindingForcesOutputAndKeepsTheLevel := by
  intro ch m p psel top run s hpos hlen htop hbound
  refine ⟨_, execConfig_accepted ch m p run hpos hlen htop, ?_, ?_, ?_⟩
  · simp [hbound]
  · simp [configWrites_eq]
  · rintro (rfl | rfl | rfl) <;> simp [configWrites_eq, policyIsPwm]

/-! ## DISCONNECT -/

/-- Settles O27: DISCONNECT always completes, and `unbindPin_eq` writes out what it leaves. -/
theorem disconnectLeavesTheLevelUndefined : Obligations.DisconnectLeavesTheLevelUndefined := by
  intro ch s
  obtain ⟨t, ht⟩ := exec_answers (.disconnect ch) s
  rw [ht, execDisconnect_cases ht, unbindPin_eq]
  rfl

end Sys2Proof.Machine
end

section
/-! PROOF. PWM and RDDUTY (41_waveform.md R118 to R125): an equation for PWM bypassed, PWM programmed and PWM with no
frequency, and for RDDUTY accepted and refused; then what a second PWM and an RDDUTY after a PWM find. -/

namespace Sys2Proof.Machine

/-! ## PWM bypassed -/

theorem execPwm_bypassed (ch : Ch) (m : SignalMode) (f : Word32) {duty : Byte} (s : State)
    (hduty : duty.toNat = 0 ∨ duty.toNat = 100) :
    execPwm ch (modeCode (timerMode m)) f duty s =
      .next (writeResponse {} (bypassWrites ch (duty.toNat == 100) s)) := by
  refine critical_responds rfl ?_
  simp only [signalModeOfBits_code]
  rw [if_neg (by omega), if_pos hduty]
  rfl

theorem exec_pwm_reserved (ch : Ch) {mode : BitVec 2} (f : Word32) {duty : Byte} (s : State)
    (h : 2 ≤ mode.toNat ∨ 100 < duty.toNat) :
    exec (.pwm ch mode f duty) s = .next (refusedAs .badOperand s) :=
  execPwm_reserved ch f s (h.imp_left fun hmode => decide_eq_false (Nat.not_le.2 hmode))

/-- The status of a disconnected output pin is 2 for its direction and 1 for a high level; a defined level draws no bit
(R127). -/
theorem exec_pinstat_static_output {ch : Ch} {level : Bool} {s : State} (hpol : s.pol.get ch = .disconnected)
    (hdir : s.pindir.get ch = true) (hlevel : s.pinlvl.get ch = levelOfBool level) :
    exec (.pinstat ch) s = .next (writeResponse { val := if level then 3 else 2 } s) := by
  obtain ⟨lvl, v, hexec, hlow, hhigh, hv⟩ := pinstatReportsThePin ch s
  have hdefined : s.pinlvl.get ch ≠ .X := by
    rw [hlevel]
    cases level <;> decide
  obtain rfl : lvl = level := by
    cases level
    · exact hlow hlevel
    · exact hhigh hlevel
  obtain rfl : v = if lvl then 3 else 2 := by
    apply BitVec.eq_of_toNat_eq
    rw [hv, hpol, hdir]
    cases lvl <;> rfl
  rw [hexec, if_neg hdefined]
  rfl

/-- Settles O28: a bypassed PWM responds over `bypassWrites`, which leaves a static output for PINSTAT. -/
theorem bypassedPwmIsAStaticOutput : Obligations.BypassedPwmIsAStaticOutput := by
  refine fun ch f level s => ⟨fun m => ?_, fun mode hmode => exec_pwm_reserved ch f s (.inl hmode)⟩
  refine ⟨_, execPwm_bypassed ch m f s (by cases level <;> decide), ?_, ?_⟩
  · cases level <;> rfl
  · exact exec_pinstat_static_output (by simp [bypassWrites_eq]) (by simp) (by cases level <;> simp [bypassWrites_eq])

/-! ## PWM programmed -/

/-- What PWM answers when it programs a signal (R118). -/
def pwmResponse (k p top duty : Nat) : Response :=
  { psel := BitVec.ofNat 3 k, presc := BitVec.ofNat 16 p, top := BitVec.ofNat 16 top,
    val := BitVec.ofNat 16 (encodeDuty top duty) }

theorem execPwm_programmed (ch : Ch) {m : SignalMode} {f : Word32} {duty : Byte} {s : State} {k p top : Nat}
    (hlow : 1 ≤ duty.toNat) (hhigh : duty.toNat ≤ 99) (h : SolvesTo s.params m f.toNat k p top) :
    execPwm ch (modeCode (timerMode m)) f duty s =
      .next (writeResponse (pwmResponse k p top duty.toNat)
        (pwmWrites ch m (BitVec.ofNat 3 k) (BitVec.ofNat 16 top) (BitVec.ofNat 16 (encodeDuty top duty.toNat)) s)) := by
  refine critical_responds rfl ?_
  simp only [signalModeOfBits_code, setGie_params, solveFrequency_of_solvesTo h, prescalerAt_of_solvesTo h]
  rw [if_neg (by omega), if_neg (by omega)]
  rfl

theorem execPwm_unsupported (ch : Ch) {m : SignalMode} {f : Word32} {duty : Byte} {s : State}
    (hlow : 1 ≤ duty.toNat) (hhigh : duty.toNat ≤ 99) (h : Unsolvable s.params m f.toNat) :
    execPwm ch (modeCode (timerMode m)) f duty s = .next (refusedAs .unsupportedFrequency s) := by
  refine critical_refused ?_
  simp only [signalModeOfBits_code, setGie_params, (solveFrequency_none_iff _ _ _).2 h]
  rw [if_neg (by omega), if_neg (by omega)]
  rfl

/-- The compare register holds the compare value of a solved top as it is. -/
theorem SolvesTo.toNat_compare {c : Cfg} {m : SignalMode} {f k p top duty : Nat} (h : SolvesTo c m f k p top)
    (hduty : duty ≤ 99) : (BitVec.ofNat 16 (encodeDuty top duty) : Half).toNat = encodeDuty top duty :=
  toNat_half ((encodeDuty_le (by omega)).trans h.top_le)

/-- Settles O29: PWM responds over `pwmWrites`, and the compare register holds the rounded compare value. -/
theorem pwmProgramsTheSignal : Obligations.PwmProgramsTheSignal := by
  intro ch m f duty s k p top hlow hhigh h
  exact ⟨_, (h.toNat_compare hhigh).trans (encodeDuty_eq top duty.toNat), execPwm_programmed ch hlow hhigh h⟩

/-- Settles O30: the mode and the duty cycle are checked before the search, which finds nothing where the relation
allows nothing. -/
theorem pwmRefusesInOrder : Obligations.PwmRefusesInOrder := by
  refine fun ch mode f duty s => ⟨exec_pwm_reserved ch f s, ?_⟩
  rintro m rfl hlow hhigh h
  exact execPwm_unsupported ch hlow hhigh h

/-- Writing one signal over itself with another duty cycle writes the compare register. -/
theorem pwmWrites_again (ch : Ch) (m : SignalMode) (k : Sel) (top c c' : Half) (r : Response) (s : State) :
    pwmWrites ch m k top c' (writeResponse r (pwmWrites ch m k top c s)) =
      writeCompare ch c' (writeResponse r (pwmWrites ch m k top c s)) := by
  simp [pwmWrites_eq, writeResponse, writeCompare]

/-- Settles O31: the parameters stay, so the second PWM solves to the same signal and writes it over itself. -/
theorem secondPwmChangesOnlyTheDuty : Obligations.SecondPwmChangesOnlyTheDuty := by
  intro ch m f duty duty' s k p top hlow hhigh hlow' hhigh' h
  refine ⟨_, _, responseWord (pwmResponse k p top duty'.toNat), execPwm_programmed ch hlow hhigh h,
    (h.toNat_compare hhigh').trans (encodeDuty_eq top duty'.toNat), ?_⟩
  refine (execPwm_programmed (s := writeResponse _ (pwmWrites _ _ _ _ _ s)) ch hlow' hhigh' h).trans ?_
  rw [pwmWrites_again]
  rfl

/-! ## RDDUTY -/

theorem execRdduty_accepted {ch : Ch} {top c : Half} {s : State} (hicr : s.icr = top) (hocr : s.ocr.get ch = c)
    (htop : top ≠ 0) (hc : c.toNat ≤ top.toNat) :
    execRdduty ch s = .next (writeResponse
      { top := top, val := BitVec.ofNat 16 (decodeDuty top.toNat c.toNat) } s) := by
  subst hicr hocr
  refine critical_responds rfl ?_
  exact (if_neg htop).trans (if_neg (Nat.not_lt.2 hc))

theorem execRdduty_refused {ch : Ch} {s : State} (h : s.icr = 0 ∨ s.icr.toNat < (s.ocr.get ch).toNat) :
    execRdduty ch s = .next (refusedAs .badState s) := by
  refine critical_refused ?_
  by_cases htop : s.icr = 0
  · exact if_pos htop
  · exact (if_neg htop).trans (if_pos (h.resolve_left htop))

/-- Settles O32: the quotient is at most 100, so the field holds it. -/
theorem rddutyDividesTheRegisters : Obligations.RddutyDividesTheRegisters :=
  fun _ _ => ⟨fun htop hc => ⟨_, toNat_decodeDuty hc, execRdduty_accepted rfl rfl htop hc⟩, execRdduty_refused⟩

/-- Settles O33: RDDUTY decodes the top and the compare value PWM encoded, as `decodeDuty_encodeDuty` says. -/
theorem rddutyAfterPwmIsWithinOne : Obligations.RddutyAfterPwmIsWithinOne := by
  intro ch m f duty s k p top hlow hhigh h htop
  have hc := h.toNat_compare hhigh
  have hicr : (BitVec.ofNat 16 top : Half).toNat = top := toNat_half h.top_le
  have hle : (BitVec.ofNat 16 (encodeDuty top duty.toNat) : Half).toNat ≤ (BitVec.ofNat 16 top : Half).toNat := by
    rw [hc, hicr]
    exact encodeDuty_le (by omega)
  have htopNe : (BitVec.ofNat 16 top : Half) ≠ 0 := (half_ne_zero_iff _).2 (by omega)
  refine ⟨_, _, execPwm_programmed ch hlow hhigh h, execRdduty_accepted rfl (get_put_same _ ch _) htopNe hle, ?_⟩
  rw [toNat_decodeDuty hle, hc, hicr]
  exact decodeDuty_encodeDuty duty.toNat (by omega)

end Sys2Proof.Machine
end

section
/-! PROOF. The sequencer's commands TRAIN, STOP, POLL, GIEON and GIEOFF (42_sequencer.md R136 to R151): an equation for
each that is accepted, and the refusals of TRAIN in their order. -/

namespace Sys2Proof.Machine

/-! ## TRAIN -/

theorem preemptOther_setGie (ch : Ch) (v : Bool) (s : State) :
    preemptOther ch (setGie v s) = setGie v (preemptOther ch s) := by
  rw [preemptOther_eq, preemptOther_eq, apply_ite (setGie v)]
  rfl

theorem trainWrites_setGie (ch : Ch) (n : Half) (d1 d2 : Byte) (v : Bool) (s : State) :
    trainWrites ch n d1 d2 (setGie v s) = setGie v (trainWrites ch n d1 d2 s) := by
  rw [trainWrites_eq, trainWrites_eq, preemptOther_setGie]
  rfl

theorem execTrain_accepted {ch : Ch} {n : Half} {d1 d2 : Byte} {s : State} (hn : n ≠ 0)
    (hd1 : trainDutyOk d1 = true) (hd2 : trainDutyOk d2 = true) (hfit : 2 * n.toNat ≤ s.params.remMax)
    (hvalid : s.cfg.valid = true) (hbound : s.pol.get ch ≠ .disconnected) :
    execTrain ch n d1 d2 s =
      .next (writeResponse { val := BitVec.ofNat 16 (2 * n.toNat) } (trainWrites ch n d1 d2 s)) := by
  rw [execTrain, if_neg hn, if_neg (by simp [hd1, hd2]), if_neg (Nat.not_lt.2 hfit), if_neg (by simp [hvalid]),
    if_neg hbound]
  exact critical_responds (trainWrites_frame ch n d1 d2 s).1 (by rw [trainWrites_setGie])

/-- Settles O35: an accepted TRAIN responds over `trainWrites`, which `trainWrites_eq` and `preemptOther_eq` write
out. -/
theorem trainArmsThePulseTrain : Obligations.TrainArmsThePulseTrain := by
  intro ch n d1 d2 s hn hd1 hd1' hd2 hd2' hfit hvalid hbound
  have hok1 : trainDutyOk d1 = true := (trainDutyOk_iff d1).2 ⟨hd1, hd1'⟩
  have hok2 : trainDutyOk d2 = true := (trainDutyOk_iff d2).2 ⟨hd2, hd2'⟩
  refine ⟨_, _, _, trainValue_toNat s.cfg.top hok1, trainValue_toNat s.cfg.top hok2,
    toNat_half (hfit.trans (admitted_remMax_range _).2), ?_⟩
  refine (execTrain_accepted hn hok1 hok2 hfit hvalid hbound).trans ?_
  rw [trainWrites_eq, preemptOther_eq]
  by_cases hother : s.seq.remaining ≠ 0 ∧ s.seq.active ≠ ch
  · simp only [if_pos hother]
    rfl
  · simp only [if_neg hother]
    rfl

theorem trainDutyOk_false_iff (d : Byte) : trainDutyOk d = false ↔ d.toNat = 0 ∨ 100 ≤ d.toNat := by
  rw [← Bool.not_eq_true, trainDutyOk_iff]
  omega

theorem execTrain_badOperand (ch : Ch) {n : Half} {d1 d2 : Byte} (s : State)
    (h : n = 0 ∨ trainDutyOk d1 = false ∨ trainDutyOk d2 = false) :
    execTrain ch n d1 d2 s = .next (refusedAs .badOperand s) := by
  obtain hn | hd := h
  · exact if_pos hn
  · exact execTrain_reserved ch n s hd

theorem execTrain_overflow (ch : Ch) {n : Half} {d1 d2 : Byte} {s : State} (hn : n ≠ 0)
    (hd1 : trainDutyOk d1 = true) (hd2 : trainDutyOk d2 = true) (hover : s.params.remMax < 2 * n.toNat) :
    execTrain ch n d1 d2 s = .next (refusedAs .pulseCountOverflow s) := by
  rw [execTrain, if_neg hn, if_neg (by simp [hd1, hd2]), if_pos hover]
  rfl

theorem execTrain_badState {ch : Ch} {n : Half} {d1 d2 : Byte} {s : State} (hn : n ≠ 0)
    (hd1 : trainDutyOk d1 = true) (hd2 : trainDutyOk d2 = true) (hfit : ¬s.params.remMax < 2 * n.toNat)
    (h : s.cfg.valid = false ∨ s.pol.get ch = .disconnected) :
    execTrain ch n d1 d2 s = .next (refusedAs .badState s) := by
  rw [execTrain, if_neg hn, if_neg (by simp [hd1, hd2]), if_neg hfit]
  by_cases hvalid : s.cfg.valid = false
  · exact if_pos hvalid
  · exact (if_neg hvalid).trans (if_pos (h.resolve_left hvalid))

/-- Settles O36: the statement's three conditions are the ones `execTrain` checks, in its order. -/
theorem trainRefusesInOrder : Obligations.TrainRefusesInOrder := by
  intro ch n d1 d2 s badOperand overflow badState
  have hbad : badOperand ↔ n = 0 ∨ trainDutyOk d1 = false ∨ trainDutyOk d2 = false := by
    rw [trainDutyOk_false_iff, trainDutyOk_false_iff, or_assoc]
  have hgood : ¬badOperand ↔ n ≠ 0 ∧ trainDutyOk d1 = true ∧ trainDutyOk d2 = true := by
    rw [hbad, not_or, not_or, Bool.not_eq_false, Bool.not_eq_false]
  refine ⟨fun h => execTrain_badOperand ch s (hbad.1 h), fun h hover => ?_, fun h hfit hstate => ?_⟩
  · obtain ⟨hn, hd1, hd2⟩ := hgood.1 h
    exact execTrain_overflow ch hn hd1 hd2 hover
  · obtain ⟨hn, hd1, hd2⟩ := hgood.1 h
    exact execTrain_badState hn hd1 hd2 hfit hstate

/-! ## STOP, POLL, GIEON and GIEOFF -/

/-- Settles O37: STOP always completes, and `stopWrites_eq` writes out what it leaves. -/
theorem stopCancelsTheTrain : Obligations.StopCancelsTheTrain := by
  intro s
  obtain ⟨t, ht⟩ := exec_answers .stop s
  rw [ht, execStop_cases ht, stopWrites_eq]
  rfl

/-- Settles O38: POLL responds over the state it finds. -/
theorem pollAnswersTheCounter : Obligations.PollAnswersTheCounter := by
  intro s
  obtain ⟨t, ht⟩ := exec_answers .poll s
  rw [ht, execPoll_cases ht]
  rfl

/-- Settles O39: each responds with the enable it finds, over `setGie`. -/
theorem gieCommandsAnswerTheOldEnable : Obligations.GieCommandsAnswerTheOldEnable := by
  intro s
  obtain ⟨t, ht⟩ := exec_answers .gieon s
  obtain ⟨u, hu⟩ := exec_answers .gieoff s
  rw [ht, execGieon_cases ht, hu, execGieoff_cases hu]
  exact ⟨rfl, rfl⟩

end Sys2Proof.Machine
end

section
/-! PROOF. The sequencer's events (42_sequencer.md R152 to R158): what a match and a service do, the transition table
over every step, the count of services over a run, and the end of a train that is serviced promptly. -/

namespace Sys2Proof.Machine

/-! ## MATCH -/

/-- Settles O40: the match is enabled because the timer runs, and `matchLevel` is R152's table. -/
theorem matchSetsTheFlagAndActsOnThePin : Obligations.MatchSetsTheFlagAndActsOnThePin := by
  intro ch s rest hs hclk
  have hen : moveEnabled (.compareMatch ch) s = true := decide_eq_true hclk
  refine ⟨matchLevel (s.pol.get ch) (s.pinlvl.get ch), ?_, ?_⟩
  · rw [step_cons hs, takeMove_enabled (by rwa [moveEnabled_rescheduled])]
    rfl
  · cases s.pol.get ch with
    | toggle => cases s.pinlvl.get ch <;> simp [matchLevel]
    | _ => simp [matchLevel]

/-! ## Service -/

/-- R153's condition: the interrupt is requested, and B yields to a pending A (60_exceptions.md R176). -/
theorem serviceEnabled_iff (ch : Ch) (s : State) :
    serviceEnabled ch s = true ↔ s.gie = true ∧ s.ocie.get ch = true ∧ s.ocf.get ch = true ∧
      (ch = .B → ¬(s.ocie.a = true ∧ s.ocf.a = true)) := by
  cases ch with
  | A =>
    simp only [reduceCtorEq, false_imp_iff, and_true]
    exact irqRequested_iff .A s
  | B =>
    have hA := irqRequested_iff .A s
    have hB := irqRequested_iff .B s
    simp only [serviceEnabled, Bool.and_eq_true, Bool.not_eq_true', ← Bool.not_eq_true, hA, hB, and_assoc,
      forall_const]
    exact and_congr_right fun h => and_congr_right fun _ => and_congr_right fun _ => not_congr (and_iff_right h)

theorem step_service {s : State} {ch : Ch} {rest : List Event} (hs : s.schedule = .service ch :: rest)
    (hen : serviceEnabled ch s = true) : step s = .next (serviceChannel ch { s with schedule := rest }) := by
  have hmove : moveEnabled (.service ch) s = true := hen
  rw [step_cons hs, takeMove_enabled (by rwa [moveEnabled_rescheduled])]
  rfl

/-- Settles O41: a service that is not enabled is no step, and the other three clauses are the three cases of
`serviceChannel_eq`. -/
theorem serviceAlternatesAndEndsTheTrain : Obligations.ServiceAlternatesAndEndsTheTrain := by
  intro ch s rest hs enabled
  have hiff : serviceEnabled ch s = true ↔ enabled := serviceEnabled_iff ch s
  refine ⟨fun hno => ?_, fun hen hact hone => ?_, fun hen hact htwo => ?_, fun hen hother => ?_⟩
  · rw [step_answers_iff hs]
    exact fun hmove => hno (hiff.1 hmove)
  · have hr : s.seq.remaining ≠ 0 := (half_ne_zero_iff _).2 (by omega)
    have hlast : s.seq.remaining - 1 = 0 := by bv_omega
    rw [step_service hs (hiff.2 hen), serviceChannel_eq, if_pos ⟨hr, hact⟩, if_pos hlast]
    rfl
  · have hr : s.seq.remaining ≠ 0 := (half_ne_zero_iff _).2 (by omega)
    have hpred := toNat_half_pred hr
    have hmore : s.seq.remaining - 1 ≠ 0 := (half_ne_zero_iff _).2 (by omega)
    refine ⟨s.seq.remaining - 1, hpred, ?_⟩
    rw [step_service hs (hiff.2 hen), serviceChannel_eq, if_pos ⟨hr, hact⟩, if_neg hmore]
  · have hnone : ¬(s.seq.remaining ≠ 0 ∧ s.seq.active = ch) := by
      rintro ⟨hr, hact⟩
      exact hother.elim hr fun hne => hne hact
    rw [step_service hs (hiff.2 hen), serviceChannel_eq, if_neg hnone]

/-! ## The train over one step -/

theorem servesNext_iff (s : State) : servesNext s = true ↔ ∃ ch rest, s.schedule = .service ch :: rest := by
  unfold servesNext
  split
  · exact iff_of_true rfl ⟨_, _, ‹_›⟩
  · rename_i hno
    exact iff_of_false Bool.false_ne_true fun ⟨ch, rest, hs⟩ => hno ch rest hs

/-- Under the invariants a service that happens is owed: the interrupt is enabled for the active channel alone
(10_state.md R29). -/
theorem Inv.step_service_seq {s t : State} (h : Inv s) (hserves : servesNext s = true) (hstep : step s = .next t) :
    s.seq.remaining ≠ 0 ∧ t.seq = { s.seq with remaining := s.seq.remaining - 1 } := by
  obtain ⟨ch, rest, hs⟩ := (servesNext_iff s).1 hserves
  have hen : serviceEnabled ch s = true := (step_answers_iff hs).1 ⟨t, hstep⟩
  have hact := (h.enabledIffActive ch).1 (serviceEnabled_requested hen).2.1
  obtain rfl : Machine.serviceChannel ch { s with schedule := rest } = t :=
    Host.Outcome.next.inj ((step_service hs hen).symm.trans hstep)
  rw [serviceChannel_seq, if_pos hact]
  exact ⟨hact.1, rfl⟩

/-- A step that is no service and issues neither TRAIN nor STOP leaves the train (10_state.md R27). -/
theorem step_seq_of_undisturbed {s t : State} (hserves : servesNext s = false)
    (hissue : (issuedInstr s).any writesTrain = false) (hstep : step s = .next t) : t.seq = s.seq := by
  cases step_kind hstep with
  | command rest rx r _ hissued hwrites =>
    rw [hissued] at hissue
    obtain hsame | ⟨rfl, -⟩ | ⟨_, _, _, _, rfl, -⟩ := hwrites.seq
    · exact hsame
    · cases hissue
    · cases hissue
  | service hnext _ => simp [servesNext, hnext] at hserves
  | busRead rest => exact sendByte_seq _
  | _ => rfl

theorem seqState_idle_iff (s : State) : seqState s = .idle ↔ s.seq.remaining = 0 := by
  unfold seqState
  split
  · exact iff_of_true rfl ‹_›
  · exact iff_of_false nofun ‹_›

theorem seqState_of_pos {s : State} (h : s.seq.remaining ≠ 0) : seqState s = .running s.seq.remaining.toNat :=
  if_neg h

theorem seqState_congr {s t : State} (h : t.seq = s.seq) : seqState t = seqState s := by
  rw [seqState, seqState, h]

/-- The sequencer after a service of a running train: `Running(r)` becomes `Running(r - 1)`, and `Running(1)` becomes
`Idle` (42_sequencer.md R135). -/
theorem seqState_served {s t : State} (hr : s.seq.remaining ≠ 0)
    (ht : t.seq = { s.seq with remaining := s.seq.remaining - 1 }) :
    seqState t = if s.seq.remaining.toNat = 1 then .idle else .running (s.seq.remaining.toNat - 1) := by
  have hpred := toNat_half_pred hr
  have hrem : t.seq.remaining = s.seq.remaining - 1 := by rw [ht]
  split
  · rw [seqState_idle_iff, hrem]
    bv_omega
  · rw [seqState_of_pos ((half_ne_zero_iff _).2 (by rw [hrem]; omega)), hrem]
    congr 1
    omega

/-- An accepted TRAIN owes two services for each pulse (R137), the count fitting its register. -/
theorem accepted_train_remaining {ch : Ch} {n : Half} {d1 d2 : Byte} {s t : State} {r : Word}
    (h : exec (.train ch n d1 d2) s = .next t) (hr : t.rsp = some r) (hok : rspErr r = 0) :
    n ≠ 0 ∧ t.seq.remaining.toNat = 2 * n.toNat := by
  obtain ⟨e, he, rfl⟩ | ⟨hn, hd1, hd2, hfit, -, -, rfl⟩ := execTrain_cases h
  · obtain rfl : responseWord { err := e } = r := Option.some.inj hr
    rw [rspErr_responseWord] at hok
    obtain rfl | rfl | rfl := he <;> cases hok
  · refine ⟨hn, ?_⟩
    rw [writeResponse_seq, (trainWrites_seq_schedule ch n d1 d2 s).1]
    exact (armedTrain_spec s.cfg.top ch hd1 hd2 hfit).2.1

/-- A refused TRAIN leaves the train that runs (R141). -/
theorem refused_train_seq {ch : Ch} {n : Half} {d1 d2 : Byte} {s t : State} {r : Word}
    (h : exec (.train ch n d1 d2) s = .next t) (hr : t.rsp = some r) (herr : rspErr r ≠ 0) : t.seq = s.seq := by
  obtain ⟨e, -, rfl⟩ | ⟨-, -, -, -, -, -, rfl⟩ := execTrain_cases h
  · rfl
  · obtain rfl := Option.some.inj hr
    exact absurd (rspErr_responseWord _) herr

/-- Settles O42: a row of the table for each kind of step that writes the train, and no change for the others. -/
theorem sequencerFollowsItsTransitionTable : Obligations.SequencerFollowsItsTransitionTable := by
  intro s t hinv hstep
  refine ⟨fun hserves => ?_, fun ch n d1 d2 r hissued hr => ?_, fun hissued => ?_, fun hserves hissue => ?_⟩
  · obtain ⟨hr, ht⟩ := hinv.step_service_seq hserves hstep
    exact ⟨_, seqState_of_pos hr, seqState_served hr ht⟩
  · obtain ⟨rest, rx, hexec⟩ := step_of_issuedInstr hissued
    rw [hexec] at hstep
    refine ⟨fun hok => ?_, fun herr => ?_⟩
    · obtain ⟨hn, hrem⟩ := accepted_train_remaining hstep hr hok
      have hpos := (half_ne_zero_iff n).1 hn
      rw [seqState_of_pos ((half_ne_zero_iff _).2 (by omega)), hrem]
    · have hsame := refused_train_seq hstep hr herr
      exact seqState_congr hsame
  · obtain ⟨rest, rx, hexec⟩ := step_of_issuedInstr hissued
    rw [hexec] at hstep
    rw [seqState_idle_iff, execStop_cases hstep, writeResponse_seq, (stopWrites_seq_schedule _).1]
  · refine seqState_congr (step_seq_of_undisturbed hserves ?_ hstep)
    cases hi : issuedInstr s with
    | none => rfl
    | some i => simpa [hi] using hissue

/-! ## The services of a run -/

/-- A step without TRAIN or STOP: what is owed goes down by the services taken. -/
theorem Inv.step_owed {s t : State} (h : Inv s) (hissue : (issuedInstr s).any writesTrain = false)
    (hstep : step s = .next t) :
    (if servesNext s then 1 else 0) + t.seq.remaining.toNat = s.seq.remaining.toNat := by
  by_cases hserves : servesNext s = true
  · obtain ⟨hr, ht⟩ := h.step_service_seq hserves hstep
    rw [if_pos hserves, ht, Nat.add_comm]
    exact toNat_half_pred hr
  · rw [if_neg hserves, step_seq_of_undisturbed (Bool.not_eq_true _ ▸ hserves) hissue hstep, Nat.zero_add]

/-- What one more step adds to an undisturbed run. -/
theorem undisturbedRun_succ {k c : Nat} {s u : State} (h : undisturbedRun (k + 1) s = some (u, c)) :
    (issuedInstr s).any writesTrain = false ∧
      ∃ t n, step s = .next t ∧ undisturbedRun k t = some (u, n) ∧ c = n + if servesNext s then 1 else 0 := by
  rw [undisturbedRun] at h
  split at h
  · cases h
  · rename_i hissue
    refine ⟨Bool.not_eq_true _ ▸ hissue, ?_⟩
    split at h
    · rename_i t ht
      split at h
      · rename_i n hn
        cases h
        exact ⟨t, n, ht, hn, rfl⟩
      · cases h
    · cases h
    · cases h

/-- R155 over any undisturbed run: the services taken and those still owed are those owed at its start. -/
theorem Inv.undisturbedRun_owed {k c : Nat} {s u : State} (h : Inv s) (hrun : undisturbedRun k s = some (u, c)) :
    c + u.seq.remaining.toNat = s.seq.remaining.toNat := by
  induction k generalizing s c with
  | zero =>
    cases hrun
    exact Nat.zero_add _
  | succ k ih =>
    obtain ⟨hissue, t, n, hstep, hrest, rfl⟩ := undisturbedRun_succ hrun
    have hfirst := h.step_owed hissue hstep
    have hlater := ih ((step_kind hstep).inv h) hrest
    omega

/-- Settles O44: TRAIN leaves the invariants and `2N` services owed, and an undisturbed run keeps the sum. -/
theorem trainOfNPulsesTakes2NServices : Obligations.TrainOfNPulsesTakes2NServices := by
  intro s t u ch n d1 d2 r k c hinv hexec hr hok hrun
  obtain ⟨q, w, hwrites, rfl⟩ := exec_commandWrites hexec
  have hsum := ((hwrites.inv hinv).writeResponse q).undisturbedRun_owed hrun
  have hzero : u.seq.remaining = 0 ↔ u.seq.remaining.toNat = 0 := BitVec.toNat_eq
  rw [(accepted_train_remaining hexec hr hok).2] at hsum
  refine ⟨hsum, ?_⟩
  rw [seqState_idle_iff, hzero]
  omega

/-! ## A train that is serviced promptly -/

/-- The end of a train on `ch` (R153): idle, timer stopped, interrupt disabled, pin unbound at level `l`. -/
def TrainOver (ch : Ch) (l : Level) (t : State) : Prop :=
  seqState t = .idle ∧ t.tclk = 0 ∧ t.ocie.get ch = false ∧ t.pol.get ch = .disconnected ∧ t.pinlvl.get ch = l

/-- One match of the active channel and its service, with interrupts unmasked: the train is over if one service was
owed, and runs on with one fewer otherwise. -/
theorem Inv.match_service {s : State} {rest : List Event} (h : Inv s) (hgie : s.gie = true)
    (hr : s.seq.remaining ≠ 0)
    (hs : s.schedule = .compareMatch s.seq.active :: .service s.seq.active :: rest) :
    ∃ u t, step s = .next u ∧ step u = .next t ∧ t.schedule = rest ∧ t.params = s.params ∧
      (s.seq.remaining.toNat = 1 → TrainOver s.seq.active (if s.params.idleLevel then .high else .low) t) ∧
      (2 ≤ s.seq.remaining.toNat → t.gie = true ∧ t.seq.active = s.seq.active ∧
        t.seq.remaining.toNat + 1 = s.seq.remaining.toNat) := by
  obtain ⟨l, hmatch, -⟩ := matchSetsTheFlagAndActsOnThePin _ s _ hs (h.trainClocked hr)
  obtain ⟨-, hlast, hmore, -⟩ := serviceAlternatesAndEndsTheTrain s.seq.active
    { s with schedule := .service s.seq.active :: rest, ocf := s.ocf.put s.seq.active true,
             pinlvl := s.pinlvl.put s.seq.active l } rest rfl
  have hen := (h.enabledIffActive s.seq.active).2 ⟨hr, rfl⟩
  have hfirst (hB : s.seq.active = .B) : ¬(s.ocie.a = true ∧ (s.ocf.put s.seq.active true).a = true) := by
    rintro ⟨hA, -⟩
    have hact : s.seq.active = .A := ((h.enabledIffActive .A).1 hA).2
    rw [hB] at hact
    cases hact
  have hpos := (half_ne_zero_iff _).1 hr
  by_cases hone : s.seq.remaining.toNat = 1
  · have hserve := hlast ⟨hgie, hen, get_put_same _ _ _, hfirst⟩ rfl hone
    refine ⟨_, _, hmatch, hserve, rfl, rfl, fun _ => ?_, fun htwo => by omega⟩
    exact ⟨rfl, rfl, get_put_same _ _ _, get_put_same _ _ _, get_put_same _ _ _⟩
  · have htwo : 2 ≤ s.seq.remaining.toNat := by omega
    obtain ⟨r, hpred, hserve⟩ := hmore ⟨hgie, hen, get_put_same _ _ _, hfirst⟩ rfl htwo
    exact ⟨_, _, hmatch, hserve, rfl, rfl, fun h1 => absurd h1 hone, fun _ => ⟨hgie, rfl, hpred⟩⟩

theorem runSteps_cons {k : Nat} {s t : State} (h : step s = .next t) : runSteps (k + 1) s = runSteps k t := by
  rw [runSteps, h]

/-- R158 by induction on the services owed after the next. -/
theorem Inv.promptly_serviced {k : Nat} {s : State} {rest : List Event} (h : Inv s) (hgie : s.gie = true)
    (hk : s.seq.remaining.toNat = k + 1) (hs : s.schedule = promptSchedule s.seq.active (k + 1) ++ rest) :
    ∃ t, runSteps (2 * (k + 1)) s = .next t ∧ t.schedule = rest ∧
      TrainOver s.seq.active (if s.params.idleLevel then .high else .low) t := by
  induction k generalizing s with
  | zero =>
    obtain ⟨u, t, hu, ht, hrest, -, hover, -⟩ := h.match_service hgie ((half_ne_zero_iff _).2 (by omega)) hs
    exact ⟨t, (runSteps_cons hu).trans (runSteps_cons ht), hrest, hover hk⟩
  | succ k ih =>
    obtain ⟨u, t, hu, ht, hrest, hparams, -, hmore⟩ :=
      h.match_service (rest := promptSchedule s.seq.active (k + 1) ++ rest) hgie ((half_ne_zero_iff _).2 (by omega)) hs
    obtain ⟨htgie, hact, hpred⟩ := hmore (by omega)
    have htinv : Inv t := (step_kind ht).inv ((step_kind hu).inv h)
    obtain ⟨v, hv, hvrest, hover⟩ := ih htinv htgie (by omega) (by rw [hrest, hact])
    rw [hact, hparams] at hover
    exact ⟨v, (runSteps_cons hu).trans ((runSteps_cons ht).trans hv), hvrest, hover⟩

/-- Settles O45: a running train owes at least one service, so `promptly_serviced` applies. -/
theorem promptlyServicedTrainEnds : Obligations.PromptlyServicedTrainEnds := by
  intro s rest hinv hgie hr hs
  obtain ⟨k, hk⟩ := Nat.exists_eq_add_of_le' ((half_ne_zero_iff _).1 hr)
  rw [hk] at hs ⊢
  exact hinv.promptly_serviced hgie hk hs

end Sys2Proof.Machine
end

section
/-! PROOF. A command answered with an error changes nothing but the response port (60_exceptions.md R165, R166). -/

namespace Sys2Proof.Machine

/-- An answer whose code is not 0 comes from `raise` alone, which writes the response port and nothing else (R165). -/
theorem Answered.eq_of_error {s t : State} {r : Word} (h : Answered s t) (hr : t.rsp = some r) (herr : rspErr r ≠ 0) :
    t = { s with rsp := some r } := by
  obtain ⟨e, -, rfl⟩ | ⟨q, hok, hq⟩ := h
  · rw [← hr]
    rfl
  · obtain rfl : responseWord q = r := Option.some.inj (hq.symm.trans hr)
    rw [rspErr_responseWord, hok] at herr
    exact absurd rfl herr

/-- Settles O48: a command is either turned away by `raise` or answered with code 0 (`hostCommand_answered`). -/
theorem failedCommandChangesNothing : Obligations.FailedCommandChangesNothing :=
  fun _ _ _ _ hcmd hr herr => (hostCommand_answered hcmd).eq_of_error hr herr

end Sys2Proof.Machine
end

section
/-! PROOF. The hazards of the sequencer (70_reset_and_hazards.md): a finished train leaves its pin unbound (R194), and
two matches with no service between them leave one flag (R203). -/

namespace Sys2Proof.Machine

/-- Settles O46: the last service unbinds the pin, and the unbound pin is the cause of `execTrain_badState`. -/
theorem finishedTrainNeedsANewBinding : Obligations.FinishedTrainNeedsANewBinding := by
  intro s t ch rest n d1 d2 hs hact hone hstep hn hd1 hd1' hd2 hd2' hfit
  have hen : serviceEnabled ch s = true := (step_answers_iff hs).1 ⟨t, hstep⟩
  obtain ⟨-, hlast, -⟩ := serviceAlternatesAndEndsTheTrain ch s rest hs
  obtain rfl := Host.Outcome.next.inj (hstep.symm.trans (hlast ((serviceEnabled_iff ch s).1 hen) hact hone))
  exact execTrain_badState hn ((trainDutyOk_iff d1).2 ⟨hd1, hd1'⟩) ((trainDutyOk_iff d2).2 ⟨hd2, hd2'⟩)
    (Nat.not_lt.2 hfit) (.inr (get_put_same _ _ _))

theorem step_compareMatch {s : State} {ch : Ch} {rest : List Event} (hs : s.schedule = .compareMatch ch :: rest)
    (hclk : s.tclk ≠ 0) : step s = .next (matchChannel ch { s with schedule := rest }) :=
  (step_cons hs).trans (takeMove_enabled (decide_eq_true hclk))

/-- Two toggles cancel, and level `X` stays `X` (R152). -/
theorem matchLevel_toggle_twice (l : Level) : matchLevel .toggle (matchLevel .toggle l) = l := by
  cases l <;> rfl

/-- Both matches set the one flag, and the second undoes what the first did to the pin. -/
theorem matchChannel_twice_of_toggle {s : State} {ch : Ch} (h : s.pol.get ch = .toggle) :
    matchChannel ch (matchChannel ch s) = { s with ocf := s.ocf.put ch true } := by
  simp only [matchChannel_eq, put_put, get_put_same, h, matchLevel_toggle_twice, put_get]

/-- Settles O47: both matches are enabled because the timer runs, and together they are
`matchChannel_twice_of_toggle`. -/
theorem twoMatchesCollapseIntoOneFlag : Obligations.TwoMatchesCollapseIntoOneFlag := by
  intro s ch rest hs hclk htoggle
  have hfirst := step_compareMatch hs hclk
  have hsecond : step (matchChannel ch { s with schedule := .compareMatch ch :: rest }) =
      .next (matchChannel ch (matchChannel ch { s with schedule := rest })) :=
    step_compareMatch rfl hclk
  rw [runSteps_cons hfirst, runSteps_cons hsecond]
  exact congrArg _ (matchChannel_twice_of_toggle htoggle)

end Sys2Proof.Machine
end
